-- ==== Sys2Proof/Word.lean ====
section
/-!
DEFINITION. The words of the hardware: the 64-bit register word (10_state.md R20), the 22-bit byte
offset of an access (30_encoding.md R80), the direction of an access or of a transaction.
-/

namespace Sys2Proof

abbrev Byte := BitVec 8

/-- The value of ERR<n>CTLR (R20); bit 0 is the least significant bit (R9). -/
abbrev Word := BitVec 64

/-- A byte offset within the RAS component's interface (R80). -/
abbrev Offset := BitVec 22

/-- The largest record index (R1: n = 0 to 65534). -/
abbrev maxIndex : Nat := 65534

/-- `dir` of an access (R80), and "on reads", "on writes" of an error event (R121). -/
inductive Dir where
  | read
  | write
deriving DecidableEq, Repr

end Sys2Proof
end

