-- ==== Sys2Proof/Machine/Bits.lean ====
section
/-!
DEFINITION. Bit and byte helpers: a word given bit by bit (the `for i in 0 .. 63` loops of R100, R101
and R170), and numbers as bytes, least significant byte first.
-/

namespace Sys2Proof

/-- The `w`-bit word whose bit i is `f i`. -/
def bitsOf (f : Nat → Bool) : (w : Nat) → BitVec w
  | 0 => 0#0
  | w + 1 => BitVec.cons (f w) (bitsOf f w)

/-- The number whose bytes are `bs`, the first the least significant. -/
def bytesNat : List Byte → Nat
  | [] => 0
  | b :: bs => b.toNat + 256 * bytesNat bs

/-- The `k` low bytes of a number, the least significant first. -/
def natBytes : Nat → Nat → List Byte
  | 0, _ => []
  | k + 1, x => BitVec.ofNat 8 x :: natBytes k (x / 256)

/-- `new` where `mask` has a 1, `old` where it has a 0. -/
def mergeWord {w : Nat} (mask old new : BitVec w) : BitVec w := (old &&& ~~~mask) ||| (new &&& mask)

end Sys2Proof
end

