-- ==== Sys2Proof/Config.lean ====
section
/-!
DEFINITION. The implementation parameters of 00_scope.md R7, as plain data, and the free values.
A parameter has no value in the spec; each is an argument of the model. The configuration stands in
State, no step changes it, and every statement is about every configuration (log entry 1).
-/

namespace Sys2Proof

/-- The ten fields of ERR<n>FR that the rules read (10_state.md R24). Widths: R7. -/
structure FR where
  ed  : BitVec 2
  ui  : BitVec 2
  fi  : BitVec 2
  ue  : BitVec 2
  cfi : BitVec 2
  dui : BitVec 2
  ci  : BitVec 2
  dfi : BitVec 2
  cec : BitVec 3
  ced : BitVec 1
deriving DecidableEq, Repr

/-- The features with a `FixedEnable` parameter (60_exceptions.md R140). -/
inductive Feature where
  | ed
  | ui
  | fi
  | ue
  | cfi
  | dui
  | ci
deriving DecidableEq, Repr

/-- `FixedEnable(n, F)` for each feature of R140. -/
structure FixedEnables where
  ed  : Bool
  ui  : Bool
  fi  : Bool
  ue  : Bool
  cfi : Bool
  dui : Bool
  ci  : Bool
deriving DecidableEq, Repr

/-- The parameters of R7 that belong to one record index `n`. -/
structure Record where
  /-- The index. -/
  n              : Nat
  /-- `Implemented(n)`. -/
  implemented    : Bool
  /-- `FirstInNode(n)`. -/
  firstInNode    : Bool
  /-- `NodeFirst(n)`, defined for implemented records (R8 item 2). -/
  nodeFirst      : Option Nat
  /-- `FR(n)`; read only where `FirstInNode(n)` (R8). -/
  fr             : FR
  /-- `HasCECounter(n)`. -/
  hasCECounter   : Bool
  /-- `ColdResetED(n)`. -/
  coldResetED    : Bool
  /-- `ColdResetOther(n)`. -/
  coldResetOther : Word
  /-- `Res0Kind(n, i)`: bit i is 1 for `Stored`, 0 for `Hardwired` (10_state.md R44). -/
  res0Stored     : Word
  /-- `FullyDisables(n)`. -/
  fullyDisables  : Bool
  /-- `DeferredAborts(n)`. -/
  deferredAborts : Bool
  /-- `FixedEnable(n, F)`. -/
  fixedEnable    : FixedEnables
deriving DecidableEq, Repr

/-- `FhiBase`, the set of event classes of the lost list of FI, RFI, WFI (60_exceptions.md R129). -/
structure FhiBase where
  /-- R129 (a): errors recorded as Uncorrected. -/
  uncorrected : Bool
  /-- R129 (b): errors recorded as Deferred, where there is no DFI control. -/
  deferred    : Bool
  /-- R129 (c): corrected error events, where there is no CFI control. -/
  corrected   : Bool
deriving DecidableEq, Repr

inductive ByteOrder where
  | little
  | big
deriving DecidableEq, Repr

/-- All parameters of R7. A record index that `records` does not list is not implemented. -/
structure Config where
  /-- "RAS System Architecture v2 is implemented". -/
  rasv2          : Bool
  /-- Sorted by index, no repeats. -/
  records        : List Record
  fhiBase        : FhiBase
  /-- `true`: the signals of a critical error with CI = 0, other than `CRI`, are unspecified (R136, a
  model resting on the source alone). `false`: the reading G10, R141 decides (log entry 28). -/
  uncontainedOpen : Bool
  /-- `RASBase` (20_memory.md R63). -/
  rasBase        : Nat
  /-- `AccessSizes`: the sizes in bytes that the interface takes besides 8 (20_memory.md R65; log entry 16). -/
  accessSizes    : List Nat
  /-- `ByteOrder` (20_memory.md R67). -/
  byteOrder      : ByteOrder
deriving DecidableEq, Repr

/-- The free values, `draw(N)` of R10. `Config.draw k n` is the k-th drawn word, for record n. No body:
nothing can be proved of its bits, so a statement about it holds for every value. -/
opaque Config.draw : Nat → Nat → Word

/-- The parameters State.reset is given: one record, index 0, the first of its node, with the ERR<n>FR
values of configuration K1 of 95_test_vectors.md. DESIGN CHOICE, unsafe (log entry 2): no statement
rests on it. -/
def Config.atReset : Config where
  rasv2 := true
  records := [
    { n := 0, implemented := true, firstInNode := true, nodeFirst := some 0
      fr := { ed := 2, ui := 2, fi := 2, ue := 2, cfi := 2, dui := 2, ci := 2, dfi := 2, cec := 2, ced := 1 }
      hasCECounter := false, coldResetED := false, coldResetOther := 0, res0Stored := 0
      fullyDisables := false, deferredAborts := false
      fixedEnable :=
        { ed := false, ui := false, fi := false, ue := false, cfi := false, dui := false, ci := false } }]
  fhiBase := { uncorrected := true, deferred := true, corrected := true }
  uncontainedOpen := true
  rasBase := 0
  accessSizes := []
  byteOrder := .little

end Sys2Proof
end

