-- ==== Sys2Proof/Syntax.lean ====
section
/-!
DEFINITION. The operations of the hardware: the two rows of the opcode table (30_encoding.md R83),
and the names of what the access format does not admit (R84).
-/

namespace Sys2Proof

/-- One constructor per row of the opcode table (R83). The operands are those of R100 and R101. -/
inductive Instr where
  /-- ERRCTLR.READ: the offset. -/
  | read (off : Offset)
  /-- ERRCTLR.WRITE: the offset and the data. -/
  | write (off : Offset) (v : Word)
deriving DecidableEq, Repr

/-- Why a word is no access to an ERR<n>CTLR (R62, R64, R80, R84). -/
inductive DecodeError where
  /-- `off[5:0]` is not 0b001000 (R64). -/
  | undefinedOffset
  /-- `off[21:6]` is 0xFFFF: the block of n = 65535 (R64). -/
  | indexOutOfRange
  /-- The bytes are not the eleven of the one access length (R80, R86; layout: log entry 9). -/
  | wrongLength
  /-- The filler bit between `dir` and `data` is 1 (layout: log entry 9). -/
  | reservedBit
deriving DecidableEq, Repr

end Sys2Proof
end

