-- ==== Sys2Proof/WellFormed.lean ====
section
/-!
DEFINITION. Well-formed operations: the two conditions on the offset (30_encoding.md R82, R83). Every
64-bit value is a well-formed datum (R81); the write policy of R45 depends on the state and stands in
the meaning.
-/

namespace Sys2Proof

/-- `off[5:0] = 0b001000` (R82). -/
def Offset.lowMatches (off : Offset) : Bool := off.extractLsb' 0 6 == 0b001000#6

/-- `off[21:6] != 0xFFFF` (R82). -/
def Offset.indexInRange (off : Offset) : Bool := off.extractLsb' 6 16 != 0xFFFF#16

/-- Both conditions of R82. -/
def Offset.wf (off : Offset) : Bool := Offset.lowMatches off && Offset.indexInRange off

def Instr.offset : Instr → Offset
  | .read off => off
  | .write off _ => off

def Instr.wf (i : Instr) : Bool := Offset.wf i.offset

end Sys2Proof
end

