-- ==== Sys2Proof/Machine/Operands.lean ====
section
/-!
DEFINITION. The one operand that is assembled from bits, the record index (20_memory.md R61, R62;
30_encoding.md R82), and the byte-level view of a register word and of a part of it (20_memory.md R65, R67).
-/

namespace Sys2Proof

/-- `off(n) = 0x008 + 64 * n` (R61). -/
def offsetOf (n : Nat) : Nat := 0x008 + 64 * n

/-- The record an offset selects, or why it selects none (R62, R64, R82). -/
def recordOf (off : Offset) : Except DecodeError Nat :=
  if off.extractLsb' 0 6 ≠ 0b001000#6 then .error .undefinedOffset
  else if off.extractLsb' 6 16 = 0xFFFF#16 then .error .indexOutOfRange
  else .ok (off.extractLsb' 6 16).toNat

/-- The eight bytes of a word from `off(n)` upward: little-endian has bits 7 to 0 first (R67). -/
def wordBytes (order : ByteOrder) (v : Word) : List Byte :=
  match order with
  | .little => natBytes 8 v.toNat
  | .big => (natBytes 8 v.toNat).reverse

/-- The word whose bytes from `off(n)` upward are `bs` (R67). -/
def bytesWord (order : ByteOrder) (bs : List Byte) : Word :=
  match order with
  | .little => BitVec.ofNat 64 (bytesNat bs)
  | .big => BitVec.ofNat 64 (bytesNat bs.reverse)

/-- Which of the eight bytes, counted from `off(n)` upward, holds bit `i` (R67). -/
def byteAt (order : ByteOrder) (i : Nat) : Nat :=
  match order with
  | .little => i / 8
  | .big => 7 - i / 8

/-- A part of a register: `size` of the eight bytes of ERR<n>CTLR, from byte `first` upward. -/
structure Part where
  n     : Nat
  first : Nat
  size  : Nat
deriving DecidableEq, Repr

/-- Bit `i` stands in the part. -/
def Part.covers (p : Part) (order : ByteOrder) (i : Nat) : Bool :=
  decide (p.first ≤ byteAt order i) && decide (byteAt order i < p.first + p.size)

/-- The bits of the part. -/
def Part.mask (p : Part) (order : ByteOrder) : Word := bitsOf (p.covers order) 64

/-- The bytes of the part, out of a register value. -/
def Part.bytesOf (p : Part) (order : ByteOrder) (v : Word) : List Byte :=
  ((wordBytes order v).drop p.first).take p.size

/-- The register value with the bytes `bs` in the part, 0 elsewhere. -/
def Part.wordOf (p : Part) (order : ByteOrder) (bs : List Byte) : Word :=
  bytesWord order (List.replicate p.first 0 ++ bs ++ List.replicate (8 - p.first - p.size) 0)

/-- A part is an access size at a multiple of itself, inside the register (R65, R66; log entry 16). -/
def Part.fits (p : Part) : Bool :=
  decide (p.size ≠ 0) && decide (p.first % p.size = 0) && decide (p.first + p.size ≤ 8)

/-- The part that `size` bytes at an offset stand in, when the eight bytes around them are a register. -/
def partOf (off size : Nat) : Except DecodeError Part :=
  match recordOf (BitVec.ofNat 22 (8 * (off / 8))) with
  | .error e => .error e
  | .ok n => .ok { n := n, first := off % 8, size := size }

end Sys2Proof
end

