-- ==== Sys2Proof/Decode.lean ====
section
/-!
DEFINITION. The access format (30_encoding.md R80) as eleven bytes, the decoder and the encoder.

The triple (dir, off, data) is one 88-bit number, its bytes least significant first: `off` is bits 21:0,
`dir` bit 22, bit 23 is 0, `data` bits 87:24. The widths are R80's; their places are the model's
(log entry 9).
-/

namespace Sys2Proof

/-- `dir`: 0 read, 1 write (R80). -/
def Dir.bit : Dir → BitVec 1
  | .read => 0#1
  | .write => 1#1

/-- The 88-bit number of an access triple. -/
def accessWord (dir : Dir) (off : Offset) (data : Word) : BitVec 88 :=
  data ++ 0#1 ++ dir.bit ++ off

/-- The bytes of an access triple. -/
def accessBytes (dir : Dir) (off : Offset) (data : Word) : List Byte :=
  natBytes 11 (accessWord dir off data).toNat

/-- An access triple as the operation it selects (R83). The datum of a read is its result, not an
operand, so it is not looked at (log entry 10). -/
def decodeAccess (dir : Dir) (off : Offset) (data : Word) : Except DecodeError Instr :=
  match recordOf off with
  | .error e => .error e
  | .ok _ =>
    match dir with
    | .read => .ok (.read off)
    | .write => .ok (.write off data)

/-- The fields of an 88-bit access number. -/
def decodeWord (w : BitVec 88) : Except DecodeError Instr :=
  if w.getLsbD 23 then .error .reservedBit
  else decodeAccess (if w.getLsbD 22 then .write else .read) (w.extractLsb' 0 22) (w.extractLsb' 24 64)

/-- The operation a sequence of bytes selects, or why it selects none. -/
def decode (bytes : List Byte) : Except DecodeError Instr :=
  if bytes.length ≠ 11 then .error .wrongLength
  else decodeWord (BitVec.ofNat 88 (bytesNat bytes))

/-- The access that is an operation. -/
def encode : Instr → List Byte
  | .read off => accessBytes .read off 0
  | .write off v => accessBytes .write off v

/-- The access whose low `nbits` bits are `w`, all others 0. -/
def tableBytes (nbits w : Nat) : List Byte := natBytes 11 (w % 2 ^ nbits)

/-- What the decoder reads from a word numbered as the opcode table numbers it (log entry 9). -/
def decodeTableWord (nbits w : Nat) : Option Instr := (decode (tableBytes nbits w)).toOption

end Sys2Proof
end

