-- ==== Sys2Proof/Machine/Env.lean ====
section
/-!
DEFINITION. What passes between the hardware and its environment: error events and the signals they
generate (60_exceptions.md R120, R121), accesses, resets, and what the hardware gives back.
-/

namespace Sys2Proof.Machine

/-- `recordedAs` of R121: the class the node records the error as, `unrecorded` for the spec's `None`. -/
inductive RecordedAs where
  | corrected
  | deferred
  | uncorrected
  | unrecorded
deriving DecidableEq, Repr

/-- An error event, an input (R121); `higherPriorityHeld` is the input R51 (b) names. -/
structure ErrorEvent where
  /-- The record the node writes to for this error. -/
  m : Nat
  dir : Dir
  recordedAs : RecordedAs
  counterEvent : Bool
  critical : Bool
  notCorrectedNotDeferred : Bool
  deferredNotToRequester : Bool
  /-- "the error record already records a higher priority error" (R51, R139). -/
  higherPriorityHeld : Bool
deriving DecidableEq, Repr

/-- A set of the four signals of R120; the set has no order (R142). -/
structure Signals where
  /-- Error recovery interrupt. -/
  eri : Bool
  /-- Fault handling interrupt. -/
  fhi : Bool
  /-- Critical error interrupt. -/
  cri : Bool
  /-- In-band error response (External abort). -/
  inBandError : Bool
deriving DecidableEq, Repr

/-- The empty set. -/
def Signals.none : Signals := { eri := false, fhi := false, cri := false, inBandError := false }

/-- What the node gives out for one error event. -/
structure EventReport where
  /-- The record of the event. -/
  m : Nat
  /-- `NodeFirst(m)`: the register that governed it (10_state.md R23). -/
  node : Nat
  signals : Signals
  /-- The class recorded; with reporting disabled nothing is recorded (R122). -/
  recorded : RecordedAs
  /-- The syndrome was discarded for a higher priority error (R139). -/
  syndromeDiscarded : Bool
  /-- With reporting disabled, the node silently corrected the error (R124; log entry 30). -/
  silentlyCorrected : Bool
deriving DecidableEq, Repr

inductive Output where
  /-- The result of a read of record `n` (R100, R102). -/
  | readData (n : Nat) (v : Word)
  /-- The result of a read of a part of record `n`: the bytes from byte `first` of the register upward (20_memory.md
  R65; log entry 16). -/
  | partData (n first : Nat) (bytes : List Byte)
  /-- The report of an error event (R143). -/
  | event (r : EventReport)
deriving DecidableEq, Repr

/-- An access as a system presents it: an address, a size in bytes, for a write the bytes from the address
upward (R10 MemRead, MemWrite; 20_memory.md R63, R65, R67). -/
inductive BusAccess where
  | read (addr size : Nat)
  | write (addr : Nat) (bytes : List Byte)
deriving DecidableEq, Repr

/-- One step of the environment (00_scope.md R4). -/
inductive Input where
  /-- An access to the component's interface, in the access format of 30_encoding.md R80. -/
  | access (bytes : List Byte)
  /-- An access through the system's address map. -/
  | bus (b : BusAccess)
  /-- `EVENT` (R121). -/
  | event (e : ErrorEvent)
  /-- `RESET` (70_reset_and_hazards.md R170). -/
  | reset
  /-- The step that changes nothing which R171 lets a model add for a value-preserving reset. -/
  | preservingReset
deriving DecidableEq, Repr

end Sys2Proof.Machine
end

