-- ==== Sys2Proof/Machine/Params.lean ====
section
/-!
DEFINITION. Reading the parameters (00_scope.md R7, R10) and the well-formed configurations (R8).
-/

namespace Sys2Proof

def FixedEnables.get (x : FixedEnables) : Feature → Bool
  | .ed => x.ed
  | .ui => x.ui
  | .fi => x.fi
  | .ue => x.ue
  | .cfi => x.cfi
  | .dui => x.dui
  | .ci => x.ci

def FR.field (fr : FR) : Feature → BitVec 2
  | .ed => fr.ed
  | .ui => fr.ui
  | .fi => fr.fi
  | .ue => fr.ue
  | .cfi => fr.cfi
  | .dui => fr.dui
  | .ci => fr.ci

/-- `present(n) = Implemented(n) and FirstInNode(n)` (10_state.md R21). -/
def Record.present (r : Record) : Bool := r.implemented && r.firstInNode

/-- The parameters of index `n`, where they are listed. -/
def Config.find (cfg : Config) (n : Nat) : Option Record := cfg.records.find? (fun r => r.n == n)

/-- The parameters of index `n` when `present(n)`, none when the register is absent (R21, R22). -/
def Config.presentRecord (cfg : Config) (n : Nat) : Option Record :=
  (cfg.find n).filter Record.present

/-- `present(n)` (R21). -/
def Config.present (cfg : Config) (n : Nat) : Bool := (cfg.presentRecord n).isSome

/-- `Implemented(n)`. -/
def Config.implemented (cfg : Config) (n : Nat) : Bool := ((cfg.find n).filter Record.implemented).isSome

/-- `NodeFirst(m)` for an implemented record `m` (R23). -/
def Config.nodeFirst (cfg : Config) (m : Nat) : Option Nat :=
  ((cfg.find m).filter Record.implemented).bind Record.nodeFirst

/-- The indices of the registers that exist (R20). -/
def Config.presentIndices (cfg : Config) : List Nat := (cfg.records.filter Record.present).map Record.n

/-- R8 item 1: `FirstInNode(n)` implies `Implemented(n)`. -/
def Record.firstIsImplemented (r : Record) : Bool := !r.firstInNode || r.implemented

/-- R8 item 2, and R7's `NodeFirst(n) = n` when `FirstInNode(n)`. -/
def Config.nodeFirstOk (cfg : Config) (r : Record) : Bool :=
  (!r.firstInNode || r.nodeFirst == some r.n) &&
  match r.nodeFirst with
  | none => !r.implemented
  | some f =>
    r.implemented && decide (f ≤ r.n) &&
    match cfg.find f with
    | none => false
    | some q => q.firstInNode && q.nodeFirst == some f

/-- R8 item 3, where FR(n) is read: for records that are first in their node (log entry 24). -/
def Config.dfiMatchesFi (cfg : Config) (r : Record) : Bool :=
  !(cfg.rasv2 && r.firstInNode) ||
    ((r.fr.dfi != 0b10#2 || r.fr.fi == 0b10#2) && (r.fr.dfi != 0b11#2 || r.fr.fi == 0b11#2))

/-- The listed indices rise strictly, from `lo` up, and none exceeds 65534 (R1). -/
def indicesRise : Nat → List Record → Bool
  | _, [] => true
  | lo, r :: rs => decide (lo ≤ r.n) && decide (r.n ≤ maxIndex) && indicesRise (r.n + 1) rs

/-- The well-formed configurations (R8), with the list in its one form and `RASBase` a multiple of 8
(20_memory.md R66). -/
def Config.wf (cfg : Config) : Bool :=
  indicesRise 0 cfg.records &&
  cfg.records.all (fun r => r.firstIsImplemented && cfg.nodeFirstOk r && cfg.dfiMatchesFi r) &&
  cfg.rasBase % 8 == 0

end Sys2Proof
end

