-- ==== Sys2Proof/Machine/Fields.lean ====
section
/-!
DEFINITION. The layout of ERR<n>CTLR (10_state.md R25 to R43): what each bit is under the parameters,
and what a reset, a read and a write do to each kind of bit (R44 to R49).
-/

namespace Sys2Proof

/-- The named controls (R25). -/
inductive Ctrl where
  | wdfi
  | dfi
  | rdfi
  | ci
  | ced
  | wdui
  | dui
  | rdui
  | wcfi
  | cfi
  | rcfi
  | wue
  | wfi
  | wui
  | ue
  | rue
  | fi
  | rfi
  | ui
  | rui
  | ed
deriving DecidableEq, Repr

/-- `kind(n, i)` (R10, R25). -/
inductive BitKind where
  | ctrl (c : Ctrl)
  | res0
  | impdef
deriving DecidableEq, Repr

/-- The position of a control (R28 to R43). -/
def Ctrl.position : Ctrl → Nat
  | .wdfi => 15
  | .dfi => 14
  | .rdfi => 14
  | .ci => 13
  | .ced => 12
  | .wdui => 11
  | .dui => 10
  | .rdui => 10
  | .wcfi => 9
  | .cfi => 8
  | .rcfi => 8
  | .wue => 7
  | .wfi => 6
  | .wui => 5
  | .ue => 4
  | .rue => 4
  | .fi => 3
  | .rfi => 3
  | .ui => 2
  | .rui => 2
  | .ed => 0

/-- The mask a field name stands for (30_encoding.md R87). -/
def Ctrl.mask (c : Ctrl) : Word := BitVec.twoPow 64 c.position

/-- A bit that is the control `single` under the field value 0b10, `split` under 0b11 (R25). -/
def lowBit (field : BitVec 2) (single split : Ctrl) : BitKind :=
  if field = 0b10#2 then .ctrl single else if field = 0b11#2 then .ctrl split else .res0

/-- A bit that is the control `c` when the condition holds (R25). -/
def bitWhen (cond : Bool) (c : Ctrl) : BitKind := if cond then .ctrl c else .res0

/-- "When RAS System Architecture v2 is implemented, ERR<n>FR.CEC != 0b000 and ERR<n>FR.CED == 1" (R31;
`cedExists` of 60_exceptions.md R133). -/
def cedExists (v2 : Bool) (fr : FR) : Bool := v2 && fr.cec != 0b000#3 && fr.ced == 1#1

/-- The table of R25: what bit `i` of a present register is. -/
def kindPresent (v2 : Bool) (fr : FR) (i : Nat) : BitKind :=
  match i with
  | 0 => bitWhen (fr.ed == 0b10#2) .ed
  | 1 => .impdef
  | 2 => lowBit fr.ui .ui .rui
  | 3 => lowBit fr.fi .fi .rfi
  | 4 => lowBit fr.ue .ue .rue
  | 5 => bitWhen (fr.ui == 0b11#2) .wui
  | 6 => bitWhen (fr.fi == 0b11#2) .wfi
  | 7 => bitWhen (fr.ue == 0b11#2) .wue
  | 8 => lowBit fr.cfi .cfi .rcfi
  | 9 => bitWhen (fr.cfi == 0b11#2) .wcfi
  | 10 => lowBit fr.dui .dui .rdui
  | 11 => bitWhen (fr.dui == 0b11#2) .wdui
  | 12 => bitWhen (cedExists v2 fr) .ced
  | 13 => bitWhen (fr.ci == 0b10#2) .ci
  | 14 => if v2 then lowBit fr.dfi .dfi .rdfi else .res0
  | 15 => bitWhen (v2 && fr.dfi == 0b11#2) .wdfi
  | j => if 32 ≤ j ∧ j < 64 then .impdef else .res0

/-- `kind(n, i)`: every bit of an absent register is RES0 (R22). -/
def Config.kind (cfg : Config) (n i : Nat) : BitKind :=
  match cfg.presentRecord n with
  | none => .res0
  | some r => kindPresent cfg.rasv2 r.fr i

/-- The IMPLEMENTATION DEFINED bits of a present register (R26, R42). -/
def isImpdefBit (i : Nat) : Bool := i == 1 || (decide (32 ≤ i) && decide (i < 64))

/-- The value bit `i` takes at a Cold reset (R47 to R49, 70_reset_and_hazards.md R170); `d` is the
draw. -/
def resetBit (v2 : Bool) (r : Record) (d : Word) (i : Nat) : Bool :=
  match kindPresent v2 r.fr i with
  | .ctrl .ed => r.coldResetED
  | .ctrl _ =>
    if kindPresent v2 r.fr 0 = .ctrl .ed ∧ r.coldResetED = true then r.coldResetOther.getLsbD i
    else d.getLsbD i
  | .res0 => if r.res0Stored.getLsbD i then d.getLsbD i else false
  | .impdef => d.getLsbD i

def resetWord (v2 : Bool) (r : Record) (d : Word) : Word := bitsOf (resetBit v2 r d) 64

/-- The value a read returns for bit `i` of a register that holds `c` (40_register_access.md R100). -/
def readBit (v2 : Bool) (r : Record) (c d : Word) (i : Nat) : Bool :=
  match kindPresent v2 r.fr i with
  | .ctrl _ => c.getLsbD i
  | .res0 => if r.res0Stored.getLsbD i then c.getLsbD i else false
  | .impdef => d.getLsbD i

def readWord (v2 : Bool) (r : Record) (c d : Word) : Word := bitsOf (readBit v2 r c d) 64

/-- Bit `i` of a register that held `c`, after the write of `v` (R101). An IMPLEMENTATION DEFINED bit is
opaque state: it takes a drawn value (log entry 5). -/
def writeBit (v2 : Bool) (r : Record) (c v d : Word) (i : Nat) : Bool :=
  match kindPresent v2 r.fr i with
  | .ctrl _ => v.getLsbD i
  | .res0 => if r.res0Stored.getLsbD i then v.getLsbD i else c.getLsbD i
  | .impdef => d.getLsbD i

def writeWord (v2 : Bool) (r : Record) (c v d : Word) : Word := bitsOf (writeBit v2 r c v d) 64

/-- The registers after a Cold reset: one entry for each `n` with `present(n)` (R20, R170). `k` numbers
the draw. -/
def Config.resetRegisters (cfg : Config) (k : Nat) : List (Nat × Word) :=
  (cfg.records.filter Record.present).map
    (fun r => (r.n, resetWord cfg.rasv2 r (Config.draw k r.n)))

/-- The SBZP write policy (10_state.md R45): each IMPLEMENTATION DEFINED bit of `v` is 0, or equals the
value the most recent read returned for it. `last` is `lastRead[n]`. -/
def sbzpBit (last : Option Word) (v : Word) (i : Nat) : Bool :=
  !isImpdefBit i || !v.getLsbD i ||
    match last with
    | none => false
    | some l => v.getLsbD i == l.getLsbD i

def sbzpAdmits (last : Option Word) (v : Word) : Bool := (List.range 64).all (sbzpBit last v)

end Sys2Proof
end

