-- ==== Sys2Proof/Machine/Table.lean ====
section
/-!
DEFINITION. A sparse table: pairs of an index and a value, in rising order of the index. The registers
CTLR[n] and the bookkeeping lastRead[n] are held in such tables.
-/

namespace Sys2Proof.Table

/-- The value at index `n`, none where the table lists none. -/
def get {α : Type} : List (Nat × α) → Nat → Option α
  | [], _ => none
  | (k, x) :: t, n => if k = n then some x else get t n

/-- The table with `v` at index `n`. -/
def put {α : Type} : List (Nat × α) → Nat → α → List (Nat × α)
  | [], n, v => [(n, v)]
  | (k, x) :: t, n, v =>
    if n < k then (n, v) :: (k, x) :: t
    else if n = k then (n, v) :: t
    else (k, x) :: put t n v

/-- The canonical form: the indices rise strictly, from `lo` up, and none exceeds 65534. -/
def wfFrom {α : Type} : Nat → List (Nat × α) → Bool
  | _, [] => true
  | lo, (k, _) :: t => decide (lo ≤ k) && decide (k ≤ maxIndex) && wfFrom (k + 1) t

def wf {α : Type} (t : List (Nat × α)) : Bool := wfFrom 0 t

end Sys2Proof.Table
end

