-- ==== Sys2Proof/Machine/State.lean ====
section
/-!
DEFINITION. The state (10_state.md R20, with the bookkeeping of 40_register_access.md), the reasons a step
can stop, and the state after reset.
-/

namespace Sys2Proof.Machine

structure State where
  /-- The implementation parameters (00_scope.md R7); no step changes them. -/
  cfg : Config
  /-- `CTLR[n]`, one entry for each n with `present(n)` (R20). -/
  ctlr : List (Nat × Word)
  /-- `lastRead[n]`, no entry for `none` (bookkeeping of R100 to R102, not hardware state). -/
  lastRead : List (Nat × Word)
  /-- The model's own: the number of the next free value. -/
  draws : Nat
  /-- The model's own: the steps of the environment still to come, the next first. -/
  inputs : List Input
  /-- The model's own: what the hardware has given out, the newest first. -/
  outputs : List Output
deriving DecidableEq, Repr

/-- The reasons for a fault. There are none: "the source names no fault that an access to this register
can raise" (30_encoding.md R84), and nothing is trapped (60_exceptions.md R146). Safe. -/
inductive Fault where
deriving DecidableEq, Repr

/-- The reasons the model gives a step no meaning (the spec's `refuse`, 00_scope.md R10). All are safe: a
refused step proves nothing. -/
inductive Refusal where
  /-- Raised by an arm of exec for an instruction without a meaning; no arm does. -/
  | notModelled (mnemonic : String)
  /-- Raised by an access that selects no ERR<n>CTLR, or is no access of R80 (20_memory.md R62, R64). -/
  | undecoded (e : DecodeError)
  /-- Raised by ERRCTLR.WRITE: an IMPLEMENTATION DEFINED bit is neither 0 nor the value last read (R45). -/
  | writePolicy
  /-- Raised by a bus access of a size other than 8 bytes that `AccessSizes` does not admit (R65). -/
  | accessSizeNotAdmitted
  /-- Raised by a bus access of an admitted size that is not at a multiple of that size inside one register
  (R64, R66). -/
  | accessNotWithinRegister
  /-- Raised by a bus access outside the interface of the component (R63, R64). -/
  | addressOutsideInterface
  /-- Raised by every step under a configuration that breaks a condition of R8. -/
  | configurationNotWellFormed
  /-- Raised by an error event whose record is not an implemented record of a node (R121). -/
  | eventOutsideNode
deriving DecidableEq, Repr

/-- What a step answers. -/
abbrev Result := Host.Outcome State Fault Refusal

/-- The state right after a Cold reset of hardware with the parameters `cfg` (70_reset_and_hazards.md
R170). -/
def State.resetFor (cfg : Config) : State where
  cfg := cfg
  ctlr := cfg.resetRegisters 0
  lastRead := []
  draws := 1
  inputs := []
  outputs := []

/-- The state right after reset, for the parameters of log entry 2. -/
def State.reset : State := State.resetFor Config.atReset

end Sys2Proof.Machine
end

