-- ==== Sys2Proof/Machine/Ops.lean ====
section
/-!
DEFINITION. The named operations over the state: the register CTLR[n], the bookkeeping lastRead[n], the free
values, the outputs, and the Cold reset. The hardware takes no exception (60_exceptions.md R146), so there is
no exception entry here; the signals of an error event are outputs (R143).
-/

namespace Sys2Proof.Machine

/-- `CTLR[n]`. -/
def State.ctlrOf (s : State) (n : Nat) : Word := (Table.get s.ctlr n).getD 0

/-- `CTLR[n] <- v`. -/
def State.setCtlr (s : State) (n : Nat) (v : Word) : State := { s with ctlr := Table.put s.ctlr n v }

/-- `lastRead[n]`. -/
def State.lastReadOf (s : State) (n : Nat) : Option Word := Table.get s.lastRead n

/-- The value the next draw gives for record `n`. -/
def State.drawn (s : State) (n : Nat) : Word := Config.draw s.draws n

/-- The state after a draw. -/
def State.afterDraw (s : State) : State := { s with draws := s.draws + 1 }

/-- `lastRead[n] := v; return v` (R100, R102). -/
def State.answerRead (s : State) (n : Nat) (v : Word) : State :=
  { s with lastRead := Table.put s.lastRead n v, outputs := .readData n v :: s.outputs }

/-- The result of a read of a part of a register that reads as `v`: the bookkeeping takes the bits of the part, and keeps
the others (a bit never read stands as 0, which admits the same writes as `none`; log entry 16). -/
def State.answerPart (s : State) (p : Part) (v : Word) : State :=
  { s with
    lastRead := Table.put s.lastRead p.n (mergeWord (p.mask s.cfg.byteOrder) ((s.lastReadOf p.n).getD 0) v)
    outputs := .partData p.n p.first (p.bytesOf s.cfg.byteOrder v) :: s.outputs }

/-- The report of an error event is given out (R143). -/
def State.emit (s : State) (r : EventReport) : State := { s with outputs := .event r :: s.outputs }

/-- `RESET` (70_reset_and_hazards.md R170). It generates no signal. -/
def State.coldReset (s : State) : State :=
  { s with ctlr := s.cfg.resetRegisters s.draws, lastRead := [], draws := s.draws + 1 }

end Sys2Proof.Machine
end

