-- ==== Sys2Proof/Machine/Access.lean ====
section
/-!
DEFINITION. The meanings of ERRCTLR.READ and ERRCTLR.WRITE (40_register_access.md R100, R101, R102).
-/

namespace Sys2Proof.Machine

/-- ERRCTLR.READ (R100); an absent register reads 0 (R102). -/
def execRead (off : Offset) (s : State) : Result :=
  match recordOf off with
  | .error e => .refused (.undecoded e)
  | .ok n =>
    match s.cfg.presentRecord n with
    | none => .next (s.answerRead n 0)
    | some r => .next (s.afterDraw.answerRead n (readWord s.cfg.rasv2 r (s.ctlrOf n) (s.drawn n)))

/-- ERRCTLR.WRITE (R101); a write to an absent register changes nothing (R102). -/
def execWrite (off : Offset) (v : Word) (s : State) : Result :=
  match recordOf off with
  | .error e => .refused (.undecoded e)
  | .ok n =>
    match s.cfg.presentRecord n with
    | none => .next s
    | some r =>
      if sbzpAdmits (s.lastReadOf n) v then
        .next (s.afterDraw.setCtlr n (writeWord s.cfg.rasv2 r (s.ctlrOf n) v (s.drawn n)))
      else .refused .writePolicy

end Sys2Proof.Machine
end

