-- ==== Sys2Proof/Machine/Dispatch.lean ====
section
/-!
DEFINITION. One arm per row of the opcode table.
-/

namespace Sys2Proof.Machine

def exec (i : Instr) (s : State) : Host.Outcome State Fault Refusal :=
  match i with
  | .read off => Sys2Proof.Machine.execRead off s
  | .write off v => Sys2Proof.Machine.execWrite off v s

end Sys2Proof.Machine
end

