-- ==== Sys2Proof/Machine/Enables.lean ====
section
/-!
DEFINITION. What the enables enable (60_exceptions.md): functions of the register value `c`, the parameters
and an error event. `r` holds the parameters of the first record of the node.
-/

namespace Sys2Proof.Machine

/-- `reporting(n)` (R122, R123). -/
def reporting (r : Record) (c : Word) : Bool :=
  if r.fr.ed = 0b10#2 then c.getLsbD 0 else r.fixedEnable.ed

/-- `sel(n, F, lo, hi, dir)` (R125). -/
def sel (r : Record) (c : Word) (f : Feature) (lo hi : Nat) (dir : Dir) : Bool :=
  if r.fr.field f = 0b10#2 then c.getLsbD lo
  else if r.fr.field f = 0b11#2 then
    match dir with
    | .read => c.getLsbD lo
    | .write => c.getLsbD hi
  else r.fixedEnable.get f

/-- R126. -/
def eriU (r : Record) (c : Word) (dir : Dir) : Bool := sel r c .ui 2 5 dir

/-- R127. -/
def eriD (r : Record) (c : Word) (dir : Dir) : Bool := sel r c .dui 10 11 dir

/-- `fi(n, dir)` (R129). -/
def fi (r : Record) (c : Word) (dir : Dir) : Bool := sel r c .fi 3 6 dir

/-- R129 (a), with `FhiBase` for the lost list. -/
def fhiU (cfg : Config) (r : Record) (c : Word) (dir : Dir) : Bool :=
  cfg.fhiBase.uncorrected && fi r c dir

/-- R128, and R129 (b) where the DFI control does not exist. -/
def fhiD (cfg : Config) (r : Record) (c : Word) (dir : Dir) : Bool :=
  if cfg.rasv2 = true ∧ r.fr.dfi = 0b10#2 then c.getLsbD 14 ^^ c.getLsbD 3
  else if cfg.rasv2 = true ∧ r.fr.dfi = 0b11#2 then
    match dir with
    | .read => c.getLsbD 14 ^^ c.getLsbD 3
    | .write => c.getLsbD 15 ^^ c.getLsbD 6
  else cfg.fhiBase.deferred && fi r c dir

/-- R131, and R129 (c) where the CFI control does not exist. -/
def fhiC (cfg : Config) (r : Record) (c : Word) (dir : Dir) : Bool :=
  if r.fr.cfi = 0b10#2 ∨ r.fr.cfi = 0b11#2 then sel r c .cfi 8 9 dir
  else cfg.fhiBase.corrected && fi r c dir

/-- `isCEEvent(n, ev)` (R133, R134). -/
def isCEEvent (cfg : Config) (r : Record) (c : Word) (ev : ErrorEvent) : Bool :=
  if r.hasCECounter = true ∧ (cedExists cfg.rasv2 r.fr = false ∨ c.getLsbD 12 = false) then ev.counterEvent
  else ev.recordedAs == .corrected

/-- R135. -/
def cri (r : Record) (c : Word) : Bool :=
  if r.fr.ci = 0b10#2 then c.getLsbD 13 else r.fixedEnable.ci

/-- R137. -/
def ue (r : Record) (c : Word) (dir : Dir) : Bool := sel r c .ue 4 7 dir

/-- `Signals(ev)` (R141), where reporting is on. -/
def enabledSignals (cfg : Config) (r : Record) (c : Word) (ev : ErrorEvent) : Signals where
  eri := (ev.recordedAs == .uncorrected && eriU r c ev.dir) || (ev.recordedAs == .deferred && eriD r c ev.dir)
  fhi :=
    (ev.recordedAs == .uncorrected && fhiU cfg r c ev.dir) ||
    (ev.recordedAs == .deferred && fhiD cfg r c ev.dir) ||
    (isCEEvent cfg r c ev && fhiC cfg r c ev.dir)
  cri := ev.critical && cri r c
  inBandError :=
    (ev.notCorrectedNotDeferred && ue r c ev.dir) ||
    (ev.deferredNotToRequester && ue r c ev.dir && r.deferredAborts)

/-- A critical error with CI = 0, which is "treated as" an Uncontained error (R136), where the model does not
take the reading G10. -/
def uncontained (cfg : Config) (r : Record) (c : Word) (ev : ErrorEvent) : Bool :=
  cfg.uncontainedOpen && ev.critical && r.fr.ci == 0b10#2 && !c.getLsbD 13

/-- The signals of an event: R141, but for an uncontained error any set without `CRI` (R136, U17). `d` is the
draw. -/
def signals (cfg : Config) (r : Record) (c : Word) (ev : ErrorEvent) (d : Word) : Signals :=
  if reporting r c = false then Signals.none
  else if uncontained cfg r c ev then
    { eri := d.getLsbD 0, fhi := d.getLsbD 1, cri := false, inBandError := d.getLsbD 2 }
  else enabledSignals cfg r c ev

/-- The report of an event: the signals, what is recorded (R122), whether the syndrome is discarded (R139), and
with reporting disabled whether the node silently corrected the error (R124). `node` is `NodeFirst(m)`. -/
def eventReport (cfg : Config) (node : Nat) (r : Record) (c : Word) (ev : ErrorEvent) (d : Word) : EventReport where
  m := ev.m
  node := node
  signals := signals cfg r c ev d
  recorded := if reporting r c then ev.recordedAs else .unrecorded
  syndromeDiscarded := reporting r c && ev.recordedAs != .unrecorded && ev.higherPriorityHeld
  silentlyCorrected := !reporting r c && !r.fullyDisables && d.getLsbD 3

end Sys2Proof.Machine
end

