-- ==== Sys2Proof/Machine/Event.lean ====
section
/-!
DEFINITION. The step `EVENT` (60_exceptions.md R121, R141): one shared operation for every error event.
-/

namespace Sys2Proof.Machine

/-- The register that governs record `m`, with its parameters: `NodeFirst(m)` for an implemented record
(10_state.md R23). -/
def nodeOf (cfg : Config) (m : Nat) : Option (Nat × Record) :=
  (cfg.nodeFirst m).bind (fun n => (cfg.presentRecord n).map (fun r => (n, r)))

/-- An error event: `CTLR[NodeFirst(m)]` decides the signals; no register changes (R141). -/
def takeEvent (ev : ErrorEvent) (s : State) : Result :=
  match nodeOf s.cfg ev.m with
  | none => .refused .eventOutsideNode
  | some (n, r) => .next (s.afterDraw.emit (eventReport s.cfg n r (s.ctlrOf n) ev (s.drawn n)))

end Sys2Proof.Machine
end

