-- ==== Sys2Proof/Machine/Partial.lean ====
section
/-!
DEFINITION. Accesses of the sizes that `AccessSizes` admits besides 8 bytes (20_memory.md R65): each is the part of the
64-bit access that its bytes are. They are no operations of the opcode table (log entry 16).
-/

namespace Sys2Proof.Machine

/-- A read of a part: the bytes of it that a read of the register returns (40_register_access.md R100, R102). -/
def readPart (p : Part) (s : State) : Result :=
  match s.cfg.presentRecord p.n with
  | none => .next (s.answerPart p 0)
  | some r => .next (s.afterDraw.answerPart p (readWord s.cfg.rasv2 r (s.ctlrOf p.n) (s.drawn p.n)))

/-- A write of a part: the bits of the part are checked and written as a write of the register does, the others stay
(40_register_access.md R101, R102). -/
def writePart (p : Part) (bs : List Byte) (s : State) : Result :=
  match s.cfg.presentRecord p.n with
  | none => .next s
  | some r =>
    if sbzpAdmits (s.lastReadOf p.n) (p.wordOf s.cfg.byteOrder bs) then
      .next (s.afterDraw.setCtlr p.n (mergeWord (p.mask s.cfg.byteOrder) (s.ctlrOf p.n)
        (writeWord s.cfg.rasv2 r (s.ctlrOf p.n) (p.wordOf s.cfg.byteOrder bs) (s.drawn p.n))))
    else .refused .writePolicy

end Sys2Proof.Machine
end

