-- ==== Sys2Proof/Machine/Fetch.lean ====
section
/-!
DEFINITION. How the next input of the environment is taken: an access is decoded and performed, an access
through the address map is brought to the access format first (20_memory.md R60 to R67).
-/

namespace Sys2Proof.Machine

/-- An access in the access format. -/
def runAccess (bytes : List Byte) (s : State) : Result :=
  match decode bytes with
  | .error e => .refused (.undecoded e)
  | .ok i => exec i s

def BusAccess.dir : BusAccess → Dir
  | .read _ _ => .read
  | .write _ _ => .write

def BusAccess.addr : BusAccess → Nat
  | .read a _ => a
  | .write a _ => a

/-- The size in bytes. -/
def BusAccess.size : BusAccess → Nat
  | .read _ k => k
  | .write _ bs => bs.length

/-- The value written, the first byte at the address (R67). -/
def BusAccess.data (order : ByteOrder) : BusAccess → Word
  | .read _ _ => 0
  | .write _ bs => bytesWord order bs

/-- The offset of a bus access from `RASBase`, which must fit the 22 bits of R80 (R60, R63). -/
def busOffset (cfg : Config) (b : BusAccess) : Except Refusal Nat :=
  if b.addr < cfg.rasBase ∨ cfg.rasBase + 2 ^ 22 ≤ b.addr then .error .addressOutsideInterface
  else .ok (b.addr - cfg.rasBase)

/-- The access format of a bus access of 8 bytes. Alignment needs no check of its own: an access that does not start at
`off(n)` has an offset that selects no register (R66). -/
def busToAccess (cfg : Config) (b : BusAccess) : Except Refusal (List Byte) :=
  if b.size ≠ 8 then .error .accessSizeNotAdmitted
  else (busOffset cfg b).map (fun off => accessBytes b.dir (BitVec.ofNat 22 off) (b.data cfg.byteOrder))

/-- The part of a register that a bus access of another size is, where `AccessSizes` admits the size (R65). -/
def busToPart (cfg : Config) (b : BusAccess) : Except Refusal Part :=
  if b.size = 8 ∨ b.size ∉ cfg.accessSizes then .error .accessSizeNotAdmitted
  else
    match busOffset cfg b with
    | .error e => .error e
    | .ok off =>
      match partOf off b.size with
      | .error e => .error (.undecoded e)
      | .ok p => if p.fits then .ok p else .error .accessNotWithinRegister

/-- A bus access to a part of a register. -/
def takePart (p : Part) (b : BusAccess) (s : State) : Result :=
  match b with
  | .read _ _ => readPart p s
  | .write _ bs => writePart p bs s

/-- A bus access: of 8 bytes, an access of R80; of another size, an access to a part of a register (R65). -/
def takeBus (b : BusAccess) (s : State) : Result :=
  if b.size = 8 then
    match busToAccess s.cfg b with
    | .error e => .refused e
    | .ok bytes => runAccess bytes s
  else
    match busToPart s.cfg b with
    | .error e => .refused e
    | .ok p => takePart p b s

/-- One input, taken from the queue already. -/
def takeInput (i : Input) (s : State) : Result :=
  match i with
  | .access bytes => runAccess bytes s
  | .bus b => takeBus b s
  | .event ev => takeEvent ev s
  | .reset => .next s.coldReset
  | .preservingReset => .next s

/-- The next input, in the order of the queue (R71); with none the registers hold their values (R172). A
configuration that is not well formed gives no step a meaning (R8). -/
def takeNext (s : State) : Result :=
  if s.cfg.wf = false then .refused .configurationNotWellFormed
  else
    match s.inputs with
    | [] => .next s
    | i :: rest => takeInput i { s with inputs := rest }

end Sys2Proof.Machine
end

