-- ==== Sys2Proof/Machine/Step.lean ====
section
/-!
DEFINITION. The step of the machine, and how an access is placed where the next step takes it.
-/

namespace Sys2Proof.Machine

/-- One step: the next input of the environment (00_scope.md R4). -/
def step (s : State) : Host.Outcome State Fault Refusal := takeNext s

/-- `s` with the access whose low `nbits` bits are `w` presented next (log entry 11). -/
def State.withFetchWord (s : State) (nbits w : Nat) : State :=
  { s with inputs := .access (tableBytes nbits w) :: s.inputs }

end Sys2Proof.Machine
end

