-- ==== Sys2Proof/Machine/Idioms.lean ====
section
/-!
DEFINITION. The pseudo-operations SET, CLR and UPDATE (30_encoding.md R88): each is a read that returns `t` and
a write of the word given here. They are not operations of the hardware.
-/

namespace Sys2Proof.Machine

/-- `SET n, mask` writes `t or mask`. -/
def setWord (t mask : Word) : Word := t ||| mask

/-- `CLR n, mask` writes `t and not mask`. -/
def clrWord (t mask : Word) : Word := t &&& ~~~mask

/-- `UPDATE n, mask, val` writes `(t and not mask) or (val and mask)`. -/
def updateWord (t mask val : Word) : Word := (t &&& ~~~mask) ||| (val &&& mask)

/-- "mask and val must have zeros at bits [63:32], bit [1] and every RES0 position" (R88): every 1 is at a
control. -/
def onlyControls (v2 : Bool) (fr : FR) (x : Word) : Bool :=
  (List.range 64).all (fun i => !x.getLsbD i || match kindPresent v2 fr i with
    | .ctrl _ => true
    | .res0 => false
    | .impdef => false)

end Sys2Proof.Machine
end

