-- ==== Sys2Proof/Safety.lean ====
section
/-!
DEFINITION. The terms the statements use: the invariant of the state, the hypotheses of an event step, the write
policy in the spec's words, and the inputs that leave a register alone.
-/

namespace Sys2Proof.Machine

/-- Bit `i` of a present register is a RES0 bit of the kind `Hardwired` (10_state.md R44). -/
def hardwired (v2 : Bool) (r : Record) (i : Nat) : Bool :=
  kindPresent v2 r.fr i == .res0 && !r.res0Stored.getLsbD i

/-- What holds of every reachable state. -/
structure State.Inv (s : State) : Prop where
  /-- The configuration is well formed (00_scope.md R8). -/
  cfgWf : s.cfg.wf = true
  /-- Exactly the present registers are held, in rising order (10_state.md R20). -/
  registers : s.ctlr.map Prod.fst = s.cfg.presentIndices
  /-- A `Hardwired` bit holds 0 (R44). -/
  hardwiredZero : ∀ n r i, s.cfg.presentRecord n = some r → hardwired s.cfg.rasv2 r i = true →
    (s.ctlrOf n).getLsbD i = false
  /-- The bookkeeping is in its one form. -/
  lastReadForm : Table.wf s.lastRead = true
  /-- A read of a present register returned 0 in each `Hardwired` bit (R100). -/
  lastReadHardwired : ∀ n r i v, s.cfg.presentRecord n = some r → s.lastReadOf n = some v →
    hardwired s.cfg.rasv2 r i = true → v.getLsbD i = false
  /-- A read of an absent register returned 0 (R102). -/
  lastReadAbsent : ∀ n v, s.cfg.present n = false → s.lastReadOf n = some v → v = 0

/-- The next input of `s` is the error event `ev`, its node is that of record `n`, whose register is present with
the parameters `r`, and `rest` are the inputs after it. -/
structure EventAt (s : State) (ev : ErrorEvent) (n : Nat) (r : Record) (rest : List Input) : Prop where
  cfgWf : s.cfg.wf = true
  next : s.inputs = .event ev :: rest
  node : s.cfg.nodeFirst ev.m = some n
  present : s.cfg.presentRecord n = some r

/-- The next step of `s` answers a next state and gives out the event report `rep`, and nothing else. -/
def Reports (s : State) (rep : EventReport) : Prop :=
  ∃ t, step s = .next t ∧ t.outputs = .event rep :: s.outputs

/-- `k` steps, stopping at the first refusal. -/
def runSteps : Nat → State → Result
  | 0, s => .next s
  | k + 1, s =>
    match step s with
    | .next t => runSteps k t
    | .fault f => .fault f
    | .refused e => .refused e

/-- The SBZP policy of 10_state.md R45 for a write of `v` after `last`: each bit of [63:32] and [1] is 0 or equals
the value the most recent read returned. -/
def WritePolicy (last : Option Word) (v : Word) : Prop :=
  ∀ i, (i = 1 ∨ (32 ≤ i ∧ i < 64)) → v.getLsbD i = false ∨ ∃ l, last = some l ∧ v.getLsbD i = l.getLsbD i

/-- The value of a control that may be single or split, in the words of 60_exceptions.md R125. -/
def ControlIs (field : BitVec 2) (fixed low high : Bool) (dir : Dir) (x : Bool) : Prop :=
  (field = 0b10#2 → x = low) ∧
  (field = 0b11#2 → dir = .read → x = low) ∧
  (field = 0b11#2 → dir = .write → x = high) ∧
  (field ≠ 0b10#2 → field ≠ 0b11#2 → x = fixed)

/-- `reporting(n)` in the words of 60_exceptions.md R122 and R123, for a register that holds `c`. -/
def ReportingIs (r : Record) (c : Word) (x : Bool) : Prop :=
  (r.fr.ed = 0b10#2 → x = c.getLsbD 0) ∧ (r.fr.ed ≠ 0b10#2 → x = r.fixedEnable.ed)

/-- An input that is no reset, and no write access to record `n` or to a part of its register, in either form of
access. -/
def LeavesRegister (cfg : Config) (n : Nat) (i : Input) : Prop :=
  i ≠ .reset ∧
  (∀ bytes off v, (i = .access bytes ∨ ∃ b, i = .bus b ∧ busToAccess cfg b = .ok bytes) →
    decode bytes = .ok (.write off v) → recordOf off ≠ .ok n) ∧
  ∀ b p, i = .bus b → b.dir = .write → busToPart cfg b = .ok p → p.n ≠ n

/-- `s` is about to take the bus access `b` of an admitted size to the part `p` of the register `p.n`, which is present
with the parameters `r`; `rest` are the inputs after it. -/
structure PartAccessAt (s : State) (b : BusAccess) (p : Part) (r : Record) (rest : List Input) : Prop where
  cfgWf : s.cfg.wf = true
  next : s.inputs = .bus b :: rest
  admitted : p.size ∈ s.cfg.accessSizes ∧ p.size ≠ 8
  size : b.size = p.size
  addr : b.addr = s.cfg.rasBase + offsetOf p.n + p.first
  fits : p.fits = true
  present : s.cfg.presentRecord p.n = some r

end Sys2Proof.Machine
end

