-- ==== Sys2Proof/Certificates/Slice0/Obligations.lean ====
section
/-!
DEFINITION. The statements for the provers. Each names the rule or section of spec/ it rests on. Words such as
"derived" mean that the rule is marked in the spec as its own decision or inference.
-/

open Sys2Proof Sys2Proof.Machine

-- Encoding -------------------------------------------------------------------------------------------------

/-- 30_encoding.md, sections 1 to 3: no bit of an operation is lost in the access format. -/
def Obligations.DecodeOfEncodeIsIdentity : Prop :=
  ∀ i : Instr, i.wf = true → decode (encode i) = .ok i

/-- Accesses written out byte by byte: dir (bit 22), off (bits 21:0), data (bits 87:24). The places of the fields
are the model's (log entry 9); the offsets are those of 95_test_vectors.md B1. -/
def Obligations.WrittenOutAccessesDecode : Prop :=
  decode [0x08, 0x00, 0x00, 0, 0, 0, 0, 0, 0, 0, 0] = .ok (.read 0x000008) ∧
  decode [0xC8, 0x00, 0x00, 0, 0, 0, 0, 0, 0, 0, 0] = .ok (.read 0x0000C8) ∧
  decode [0x48, 0x00, 0x40, 0x1D, 0x75, 0, 0, 0, 0, 0, 0] = .ok (.write 0x000048 0x751D) ∧
  decode [0x88, 0xFF, 0x7F, 0xEF, 0xCD, 0xAB, 0x89, 0x67, 0x45, 0x23, 0x01] =
    .ok (.write 0x3FFF88 0x0123456789ABCDEF) ∧
  decode [0xC8, 0xFF, 0x3F, 0, 0, 0, 0, 0, 0, 0, 0] = .error .indexOutOfRange ∧
  decode [0x10, 0x00, 0x00, 0, 0, 0, 0, 0, 0, 0, 0] = .error .undefinedOffset

/-- Each write has one access word, and an access word that decodes to a read is that of the read but for the
datum, which is the result and no operand (log entry 10). -/
def Obligations.DecodedAccessEncodesBack : Prop :=
  ∀ bytes : List Byte,
    (∀ off v, decode bytes = .ok (.write off v) → encode (.write off v) = bytes) ∧
    (∀ off, decode bytes = .ok (.read off) →
      (encode (.read off)).take 3 = bytes.take 3 ∧ (encode (.read off)).length = bytes.length)

/-- 20_memory.md R62. -/
def Obligations.OffsetSelectsRecordExactly : Prop :=
  ∀ (off : Offset) (n : Nat),
    recordOf off = .ok n ↔ off.toNat % 64 = 8 ∧ n = off.toNat / 64 ∧ n ≤ 65534

/-- 20_memory.md, section 1: the offset of every record fits, is a multiple of 8, and selects that record. -/
def Obligations.RecordOffsetSelectsRecord : Prop :=
  ∀ n : Nat, n ≤ 65534 →
    offsetOf n < 2 ^ 22 ∧ offsetOf n % 8 = 0 ∧ recordOf (BitVec.ofNat 22 (offsetOf n)) = .ok n

/-- 20_memory.md, section 1 (the spec's decision D3): an access to an offset that selects no record has no
meaning, for both operations. -/
def Obligations.UndefinedOffsetIsRefused : Prop :=
  ∀ (off : Offset) (v : Word) (s : State),
    (off.toNat % 64 ≠ 8 → exec (.read off) s = .refused (.undecoded .undefinedOffset) ∧
      exec (.write off v) s = .refused (.undecoded .undefinedOffset)) ∧
    (off.toNat = 64 * 65535 + 8 → exec (.read off) s = .refused (.undecoded .indexOutOfRange) ∧
      exec (.write off v) s = .refused (.undecoded .indexOutOfRange))

/-- A step runs the decoded access: what step adds around exec is that the access leaves the queue of inputs, and
that the configuration is well formed (00_scope.md, section 3; log entry 11). -/
def Obligations.StepRunsDecodedAccess : Prop :=
  ∀ (s : State) (bytes : List Byte) (rest : List Input) (i : Instr),
    s.cfg.wf = true → s.inputs = .access bytes :: rest → decode bytes = .ok i →
    step s = exec i { s with inputs := rest }

/-- 20_memory.md, sections 1 and 2: a bus access of 8 bytes at `RASBase + off`, whose bytes stand in the byte order
of the configuration, is the access (dir, off, data). -/
def Obligations.BusAccessIsInterfaceAccess : Prop :=
  ∀ (s : State) (rest : List Input) (off : Offset) (v : Word),
    (s.inputs = .bus (.read (s.cfg.rasBase + off.toNat) 8) :: rest →
      step s = step { s with inputs := .access (accessBytes .read off 0) :: rest }) ∧
    (s.inputs = .bus (.write (s.cfg.rasBase + off.toNat) (wordBytes s.cfg.byteOrder v)) :: rest →
      step s = step { s with inputs := .access (accessBytes .write off v) :: rest })

/-- 20_memory.md, section 2 (the spec's decisions D4, D5): a bus access of a size other than 8 that `AccessSizes` does not
admit, or one of 8 bytes that does not start at the offset of a record, is refused. What an admitted size does is the
model's (log entry 16): see the statements on parts of a register at the end. -/
def Obligations.OtherBusAccessesAreRefused : Prop :=
  ∀ (s : State) (b : BusAccess) (rest : List Input),
    s.inputs = .bus b :: rest →
    ((b.size ≠ 8 ∧ b.size ∉ s.cfg.accessSizes) ∨
      (b.size = 8 ∧ ∀ n, n ≤ 65534 → b.addr ≠ s.cfg.rasBase + offsetOf n)) →
    ∃ e, step s = .refused e

/-- 20_memory.md, section 2: the byte-level view. In little-endian order the byte at `off(n) + k` holds bits
8k+7 to 8k, in big-endian order the byte at `off(n) + 7 - k` does; either view gives the word back. -/
def Obligations.ByteOrderView : Prop :=
  ∀ (v : Word) (order : ByteOrder),
    bytesWord order (wordBytes order v) = v ∧ (wordBytes order v).length = 8 ∧
    ∀ k, k < 8 →
      (order = .little → (wordBytes order v)[k]? = some (v.extractLsb' (8 * k) 8)) ∧
      (order = .big → (wordBytes order v)[7 - k]? = some (v.extractLsb' (8 * k) 8))

-- Layout ---------------------------------------------------------------------------------------------------

/-- 10_state.md R25: the third column of the table, row by row, for a present register. -/
def Obligations.LayoutFollowsTable : Prop :=
  ∀ (cfg : Config) (n : Nat) (r : Record), cfg.presentRecord n = some r →
    (∀ i, 32 ≤ i → i < 64 → cfg.kind n i = .impdef) ∧ cfg.kind n 1 = .impdef ∧
    (∀ i, 16 ≤ i → i < 32 → cfg.kind n i = .res0) ∧
    cfg.kind n 15 = (if cfg.rasv2 = true ∧ r.fr.dfi = 0b11#2 then .ctrl .wdfi else .res0) ∧
    cfg.kind n 14 = (if cfg.rasv2 = true ∧ r.fr.dfi = 0b10#2 then .ctrl .dfi
      else if cfg.rasv2 = true ∧ r.fr.dfi = 0b11#2 then .ctrl .rdfi else .res0) ∧
    cfg.kind n 13 = (if r.fr.ci = 0b10#2 then .ctrl .ci else .res0) ∧
    cfg.kind n 12 = (if cfg.rasv2 = true ∧ r.fr.cec ≠ 0b000#3 ∧ r.fr.ced = 1#1 then .ctrl .ced else .res0) ∧
    cfg.kind n 11 = (if r.fr.dui = 0b11#2 then .ctrl .wdui else .res0) ∧
    cfg.kind n 10 = (if r.fr.dui = 0b10#2 then .ctrl .dui
      else if r.fr.dui = 0b11#2 then .ctrl .rdui else .res0) ∧
    cfg.kind n 9 = (if r.fr.cfi = 0b11#2 then .ctrl .wcfi else .res0) ∧
    cfg.kind n 8 = (if r.fr.cfi = 0b10#2 then .ctrl .cfi
      else if r.fr.cfi = 0b11#2 then .ctrl .rcfi else .res0) ∧
    cfg.kind n 7 = (if r.fr.ue = 0b11#2 then .ctrl .wue else .res0) ∧
    cfg.kind n 6 = (if r.fr.fi = 0b11#2 then .ctrl .wfi else .res0) ∧
    cfg.kind n 5 = (if r.fr.ui = 0b11#2 then .ctrl .wui else .res0) ∧
    cfg.kind n 4 = (if r.fr.ue = 0b10#2 then .ctrl .ue
      else if r.fr.ue = 0b11#2 then .ctrl .rue else .res0) ∧
    cfg.kind n 3 = (if r.fr.fi = 0b10#2 then .ctrl .fi
      else if r.fr.fi = 0b11#2 then .ctrl .rfi else .res0) ∧
    cfg.kind n 2 = (if r.fr.ui = 0b10#2 then .ctrl .ui
      else if r.fr.ui = 0b11#2 then .ctrl .rui else .res0) ∧
    cfg.kind n 0 = (if r.fr.ed = 0b10#2 then .ctrl .ed else .res0)

/-- 30_encoding.md, section 6: a control stands where the mask of its name says, in whatever configuration it
exists. -/
def Obligations.ControlStandsAtItsMask : Prop :=
  ∀ (cfg : Config) (n i : Nat) (c : Ctrl), cfg.kind n i = .ctrl c →
    i = c.position ∧ ∀ j, c.mask.getLsbD j = decide (j = i)

/-- 00_scope.md, section 3 (the spec's decisions D15, D23): what a well-formed configuration guarantees. -/
def Obligations.WellFormedConfigurationNodes : Prop :=
  ∀ cfg : Config, cfg.wf = true →
    (∀ m, cfg.implemented m = true → ∃ n r, cfg.nodeFirst m = some n ∧ cfg.presentRecord n = some r ∧ n ≤ m ∧
      cfg.nodeFirst n = some n) ∧
    (∀ n r, cfg.presentRecord n = some r → n ≤ 65534 ∧ cfg.nodeFirst n = some n ∧
      (cfg.rasv2 = true → r.fr.dfi = 0b10#2 → r.fr.fi = 0b10#2) ∧
      (cfg.rasv2 = true → r.fr.dfi = 0b11#2 → r.fr.fi = 0b11#2))

/-- 00_scope.md, section 3: no step has a meaning under a configuration that is not well formed (log entry 33). -/
def Obligations.IllFormedConfigurationIsRefused : Prop :=
  ∀ s : State, s.cfg.wf = false → step s = .refused .configurationNotWellFormed

-- ERRCTLR.READ and ERRCTLR.WRITE ---------------------------------------------------------------------------

/-- 40_register_access.md R100, a present register: completion, result and frame. `s.drawn n` is a free value. -/
def Obligations.ReadOfPresentRegister : Prop :=
  ∀ (s : State) (off : Offset) (n : Nat) (r : Record),
    recordOf off = .ok n → s.cfg.presentRecord n = some r →
    ∃ t v, exec (.read off) s = .next t ∧
      t.outputs = .readData n v :: s.outputs ∧ t.lastReadOf n = some v ∧
      (∀ i, i < 64 →
        (∀ c, s.cfg.kind n i = .ctrl c → v.getLsbD i = (s.ctlrOf n).getLsbD i) ∧
        (s.cfg.kind n i = .res0 → r.res0Stored.getLsbD i = false → v.getLsbD i = false) ∧
        (s.cfg.kind n i = .res0 → r.res0Stored.getLsbD i = true → v.getLsbD i = (s.ctlrOf n).getLsbD i) ∧
        (s.cfg.kind n i = .impdef → v.getLsbD i = (s.drawn n).getLsbD i)) ∧
      t.ctlr = s.ctlr ∧ t.cfg = s.cfg ∧ t.inputs = s.inputs ∧ t.draws = s.draws + 1 ∧
      ∀ m, m ≠ n → t.lastReadOf m = s.lastReadOf m

/-- 40_register_access.md R101, a present register and a write within the policy: completion, result and frame. -/
def Obligations.WriteOfPresentRegister : Prop :=
  ∀ (s : State) (off : Offset) (v : Word) (n : Nat) (r : Record),
    recordOf off = .ok n → s.cfg.presentRecord n = some r → WritePolicy (s.lastReadOf n) v →
    ∃ t, exec (.write off v) s = .next t ∧
      (∀ i, i < 64 →
        (∀ c, s.cfg.kind n i = .ctrl c → (t.ctlrOf n).getLsbD i = v.getLsbD i) ∧
        (s.cfg.kind n i = .res0 → r.res0Stored.getLsbD i = false →
          (t.ctlrOf n).getLsbD i = (s.ctlrOf n).getLsbD i) ∧
        (s.cfg.kind n i = .res0 → r.res0Stored.getLsbD i = true → (t.ctlrOf n).getLsbD i = v.getLsbD i)) ∧
      (∀ m, m ≠ n → t.ctlrOf m = s.ctlrOf m) ∧
      t.lastRead = s.lastRead ∧ t.outputs = s.outputs ∧ t.cfg = s.cfg ∧ t.inputs = s.inputs ∧
      t.draws = s.draws + 1

/-- 10_state.md, section 4 (the spec's decision D10): a write outside the policy is refused, and only such a write,
where the register is present. -/
def Obligations.WriteIsRefusedExactlyOutsidePolicy : Prop :=
  ∀ (s : State) (off : Offset) (v : Word) (n : Nat) (r : Record),
    recordOf off = .ok n → s.cfg.presentRecord n = some r →
    (exec (.write off v) s = .refused .writePolicy ↔ ¬ WritePolicy (s.lastReadOf n) v)

/-- 40_register_access.md, section 1, access to an absent register: a write changes nothing whatever it writes, a
read gives 0 (the spec's decision D20) and changes only the bookkeeping of that record. -/
def Obligations.AbsentRegisterAccess : Prop :=
  ∀ (s : State) (off : Offset) (v : Word) (n : Nat),
    recordOf off = .ok n → s.cfg.present n = false →
    exec (.write off v) s = .next s ∧
    ∃ t, exec (.read off) s = .next t ∧ t.outputs = .readData n 0 :: s.outputs ∧ t.lastReadOf n = some 0 ∧
      (∀ m, m ≠ n → t.lastReadOf m = s.lastReadOf m) ∧
      t.ctlr = s.ctlr ∧ t.cfg = s.cfg ∧ t.inputs = s.inputs ∧ t.draws = s.draws

/-- 40_register_access.md, section 2, read after write: a read of record n after an admitted write of v, in any later
state in which the register still holds what the write left, returns v in every control bit and in every Stored bit,
and 0 in every Hardwired bit. -/
def Obligations.ReadAfterWrite : Prop :=
  ∀ (s t u : State) (off : Offset) (v : Word) (n : Nat) (r : Record),
    recordOf off = .ok n → s.cfg.presentRecord n = some r →
    exec (.write off v) s = .next t → u.cfg = t.cfg → u.ctlrOf n = t.ctlrOf n →
    ∃ u' w, exec (.read off) u = .next u' ∧ u'.outputs = .readData n w :: u.outputs ∧
      ∀ i, i < 64 →
        (∀ c, s.cfg.kind n i = .ctrl c → w.getLsbD i = v.getLsbD i) ∧
        (s.cfg.kind n i = .res0 → w.getLsbD i = (r.res0Stored.getLsbD i && v.getLsbD i))

/-- 40_register_access.md, section 2, locality: an access to record n changes the register and the bookkeeping of no
other record, no parameter, and no input; a read changes no register at all, a write gives nothing out. -/
def Obligations.AccessIsLocal : Prop :=
  ∀ (s t : State) (i : Instr), exec i s = .next t →
    t.cfg = s.cfg ∧ t.inputs = s.inputs ∧
    (∀ m, recordOf i.offset ≠ .ok m → t.ctlrOf m = s.ctlrOf m ∧ t.lastReadOf m = s.lastReadOf m) ∧
    (∀ off, i = .read off → t.ctlr = s.ctlr) ∧
    (∀ off v, i = .write off v → t.outputs = s.outputs ∧ t.lastRead = s.lastRead)

/-- 40_register_access.md, section 1, corner cases of the read: two reads with no write to the register and no reset
between them return the same control and RES0 bits, whatever other steps are between them: events, accesses to other
records, further reads. -/
def Obligations.TwoReadsAgree : Prop :=
  ∀ (k : Nat) (s t u : State) (off : Offset) (n : Nat) (r : Record),
    recordOf off = .ok n → s.cfg.presentRecord n = some r → exec (.read off) s = .next t →
    (∀ i ∈ t.inputs.take k, LeavesRegister t.cfg n i) → runSteps k t = .next u →
    ∃ x v w, exec (.read off) u = .next x ∧ t.outputs = .readData n v :: s.outputs ∧
      x.outputs = .readData n w :: u.outputs ∧
      ∀ i, i < 64 → s.cfg.kind n i ≠ .impdef → v.getLsbD i = w.getLsbD i

/-- 30_encoding.md, section 6 (SET, CLR, UPDATE): after a read, each of the three words is within the policy, so that
the write completes and gives each control its new value, whatever the IMPLEMENTATION DEFINED bits of the read were. -/
def Obligations.ReadModifyWriteIsAdmitted : Prop :=
  ∀ (s t : State) (off : Offset) (n : Nat) (r : Record) (mask val : Word),
    recordOf off = .ok n → s.cfg.presentRecord n = some r → onlyControls s.cfg.rasv2 r.fr mask = true →
    onlyControls s.cfg.rasv2 r.fr val = true → exec (.read off) s = .next t →
    ∃ v set clr upd, t.lastReadOf n = some v ∧
      exec (.write off (setWord v mask)) t = .next set ∧
      exec (.write off (clrWord v mask)) t = .next clr ∧
      exec (.write off (updateWord v mask val)) t = .next upd ∧
      ∀ i c, s.cfg.kind n i = .ctrl c →
        (set.ctlrOf n).getLsbD i = ((s.ctlrOf n).getLsbD i || mask.getLsbD i) ∧
        (clr.ctlrOf n).getLsbD i = ((s.ctlrOf n).getLsbD i && !mask.getLsbD i) ∧
        (upd.ctlrOf n).getLsbD i = (if mask.getLsbD i then val.getLsbD i else (s.ctlrOf n).getLsbD i)

/-- 70_reset_and_hazards.md, section 3: another requester's write between the read and the write of a read-modify-write
is lost. After two admitted writes the controls are those of the second, and nothing of the first is left. -/
def Obligations.EarlierWriteIsLost : Prop :=
  ∀ (s t u : State) (off : Offset) (v w : Word) (n : Nat) (r : Record),
    recordOf off = .ok n → s.cfg.presentRecord n = some r →
    exec (.write off v) s = .next t → exec (.write off w) t = .next u →
    ∀ i, s.cfg.kind n i ≠ .impdef →
      (u.ctlrOf n).getLsbD i =
        (if s.cfg.kind n i = .res0 ∧ r.res0Stored.getLsbD i = false then (s.ctlrOf n).getLsbD i
         else w.getLsbD i && decide (i < 64))

-- Reset ----------------------------------------------------------------------------------------------------

/-- 10_state.md R47: after a Cold reset ED holds `ColdResetED(n)`, in the step `RESET` and in the state right after
reset. -/
def Obligations.ColdResetSetsED : Prop :=
  ∀ (s : State) (n : Nat) (r : Record),
    s.cfg.presentRecord n = some r → r.fr.ed = 0b10#2 →
    ((State.resetFor s.cfg).ctlrOf n).getLsbD 0 = r.coldResetED ∧
    ∀ rest, s.cfg.wf = true → s.inputs = .reset :: rest →
      ∃ t, step s = .next t ∧ (t.ctlrOf n).getLsbD 0 = r.coldResetED

/-- 70_reset_and_hazards.md, section 1 (the spec's decision D12): the rest of the step `RESET`. The controls that the
spec leaves UNKNOWN are free values and nothing is said of them. That lastRead is cleared for absent records too is
log entry 8. -/
def Obligations.ColdResetStep : Prop :=
  ∀ (s : State) (rest : List Input), s.cfg.wf = true → s.inputs = .reset :: rest →
    ∃ t, step s = .next t ∧ t.inputs = rest ∧ t.cfg = s.cfg ∧ t.outputs = s.outputs ∧
      (∀ n, t.lastReadOf n = none) ∧ t.ctlr.map Prod.fst = s.cfg.presentIndices ∧
      ∀ n r, s.cfg.presentRecord n = some r →
        (∀ i, hardwired s.cfg.rasv2 r i = true → (t.ctlrOf n).getLsbD i = false) ∧
        (r.fr.ed = 0b10#2 → r.coldResetED = true →
          ∀ i c, i ≠ 0 → s.cfg.kind n i = .ctrl c → (t.ctlrOf n).getLsbD i = r.coldResetOther.getLsbD i)

/-- 70_reset_and_hazards.md, section 1: the step that changes nothing, for a value-preserving reset, and the step with
no input, in which the register holds its values. -/
def Obligations.IdleAndPreservingStepsChangeNothing : Prop :=
  ∀ (s : State) (rest : List Input), s.cfg.wf = true →
    (s.inputs = .preservingReset :: rest → step s = .next { s with inputs := rest }) ∧
    (s.inputs = [] → step s = .next s)

-- Error events ---------------------------------------------------------------------------------------------

/-- 60_exceptions.md, section 8: an event completes, gives out one report, which names the register that governs it
(10_state.md, section 1), and changes no register. -/
def Obligations.EventChangesNoRegister : Prop :=
  ∀ (s : State) (ev : ErrorEvent) (n : Nat) (r : Record) (rest : List Input), EventAt s ev n r rest →
    ∃ t rep, step s = .next t ∧ t.outputs = .event rep :: s.outputs ∧ rep.m = ev.m ∧ rep.node = n ∧
      t.ctlr = s.ctlr ∧ t.lastRead = s.lastRead ∧ t.cfg = s.cfg ∧ t.inputs = rest

/-- 60_exceptions.md, section 1: an event of an implemented record completes, one of any other record is refused
(log entry 34). -/
def Obligations.EventCompletesForImplementedRecord : Prop :=
  ∀ (s : State) (ev : ErrorEvent) (rest : List Input), s.cfg.wf = true → s.inputs = .event ev :: rest →
    (s.cfg.implemented ev.m = true → ∃ t, step s = .next t) ∧
    (s.cfg.implemented ev.m = false → step s = .refused .eventOutsideNode)

/-- 60_exceptions.md, section 2 (the spec's decision D17): with ED = 0 none of the four signals is generated and nothing
is recorded, whatever the other bits hold. -/
def Obligations.DisabledReportingIsSilent : Prop :=
  ∀ (s : State) (ev : ErrorEvent) (n : Nat) (r : Record) (rest : List Input), EventAt s ev n r rest →
    r.fr.ed = 0b10#2 → (s.ctlrOf n).getLsbD 0 = false →
    ∃ rep, Reports s rep ∧ rep.signals = Signals.none ∧ rep.recorded = .unrecorded ∧
      rep.syndromeDiscarded = false

/-- 60_exceptions.md R126. An uncontained error (R136) has its own statement. -/
def Obligations.EriForUncorrectedErrors : Prop :=
  ∀ (s : State) (ev : ErrorEvent) (n : Nat) (r : Record) (rest : List Input), EventAt s ev n r rest →
    ev.recordedAs = .uncorrected → uncontained s.cfg r (s.ctlrOf n) ev = false →
    ∃ rep on x, Reports s rep ∧ ReportingIs r (s.ctlrOf n) on ∧
      ControlIs r.fr.ui r.fixedEnable.ui ((s.ctlrOf n).getLsbD 2) ((s.ctlrOf n).getLsbD 5) ev.dir x ∧
      rep.signals.eri = (on && x)

/-- 60_exceptions.md R127, with its last sentence: no other class of error generates the error recovery interrupt. -/
def Obligations.EriForDeferredErrors : Prop :=
  ∀ (s : State) (ev : ErrorEvent) (n : Nat) (r : Record) (rest : List Input), EventAt s ev n r rest →
    uncontained s.cfg r (s.ctlrOf n) ev = false →
    ∃ rep on x, Reports s rep ∧ ReportingIs r (s.ctlrOf n) on ∧
      ControlIs r.fr.dui r.fixedEnable.dui ((s.ctlrOf n).getLsbD 10) ((s.ctlrOf n).getLsbD 11) ev.dir x ∧
      (ev.recordedAs = .deferred → rep.signals.eri = (on && x)) ∧
      (ev.recordedAs = .corrected ∨ ev.recordedAs = .unrecorded → rep.signals.eri = false)

/-- 60_exceptions.md R128: where the DFI control exists, a Deferred error that is no corrected error event generates
the fault handling interrupt exactly when one of the pair is 1. -/
def Obligations.FhiForDeferredErrorsIsXor : Prop :=
  ∀ (s : State) (ev : ErrorEvent) (n : Nat) (r : Record) (rest : List Input), EventAt s ev n r rest →
    ev.recordedAs = .deferred → uncontained s.cfg r (s.ctlrOf n) ev = false → s.cfg.rasv2 = true →
    (r.hasCECounter = false ∨ ev.counterEvent = false) →
    ∃ rep on, Reports s rep ∧ ReportingIs r (s.ctlrOf n) on ∧
      (r.fr.dfi = 0b10#2 →
        rep.signals.fhi = (on && ((s.ctlrOf n).getLsbD 14 ^^ (s.ctlrOf n).getLsbD 3))) ∧
      (r.fr.dfi = 0b11#2 → ev.dir = .read →
        rep.signals.fhi = (on && ((s.ctlrOf n).getLsbD 14 ^^ (s.ctlrOf n).getLsbD 3))) ∧
      (r.fr.dfi = 0b11#2 → ev.dir = .write →
        rep.signals.fhi = (on && ((s.ctlrOf n).getLsbD 15 ^^ (s.ctlrOf n).getLsbD 6)))

/-- 60_exceptions.md, section 4: what FI, RFI and WFI enable, under the set `FhiBase` that stands for the lost list
(the spec's decision D22, log entry 27): Uncorrected errors; Deferred errors where the DFI control does not exist;
corrected error events where the CFI control does not exist. -/
def Obligations.FhiBaseEnables : Prop :=
  ∀ (s : State) (ev : ErrorEvent) (n : Nat) (r : Record) (rest : List Input), EventAt s ev n r rest →
    uncontained s.cfg r (s.ctlrOf n) ev = false →
    ∃ rep on x, Reports s rep ∧ ReportingIs r (s.ctlrOf n) on ∧
      ControlIs r.fr.fi r.fixedEnable.fi ((s.ctlrOf n).getLsbD 3) ((s.ctlrOf n).getLsbD 6) ev.dir x ∧
      (ev.recordedAs = .uncorrected → isCEEvent s.cfg r (s.ctlrOf n) ev = false →
        rep.signals.fhi = (on && (s.cfg.fhiBase.uncorrected && x))) ∧
      (ev.recordedAs = .deferred → isCEEvent s.cfg r (s.ctlrOf n) ev = false →
        (s.cfg.rasv2 = false ∨ (r.fr.dfi ≠ 0b10#2 ∧ r.fr.dfi ≠ 0b11#2)) →
        rep.signals.fhi = (on && (s.cfg.fhiBase.deferred && x))) ∧
      (ev.recordedAs = .corrected → isCEEvent s.cfg r (s.ctlrOf n) ev = true →
        r.fr.cfi ≠ 0b10#2 → r.fr.cfi ≠ 0b11#2 →
        rep.signals.fhi = (on && (s.cfg.fhiBase.corrected && x)))

/-- 60_exceptions.md, sections 4 and 5: where the CFI control exists, an error recorded as Corrected generates the fault
handling interrupt when it is a corrected error event and CFI (RCFI, WCFI) is 1, whatever FI holds; in the counter case
the event is the counter's (the spec's decision D19), unless CED exists and is 1. -/
def Obligations.FhiForCorrectedErrors : Prop :=
  ∀ (s : State) (ev : ErrorEvent) (n : Nat) (r : Record) (rest : List Input), EventAt s ev n r rest →
    uncontained s.cfg r (s.ctlrOf n) ev = false → ev.recordedAs = .corrected →
    (r.fr.cfi = 0b10#2 ∨ r.fr.cfi = 0b11#2) →
    ∃ rep on x, Reports s rep ∧ ReportingIs r (s.ctlrOf n) on ∧
      ControlIs r.fr.cfi r.fixedEnable.cfi ((s.ctlrOf n).getLsbD 8) ((s.ctlrOf n).getLsbD 9) ev.dir x ∧
      (r.hasCECounter = false → rep.signals.fhi = (on && x)) ∧
      (s.cfg.kind n 12 = .ctrl .ced → (s.ctlrOf n).getLsbD 12 = true → rep.signals.fhi = (on && x)) ∧
      (r.hasCECounter = true → (s.cfg.kind n 12 = .res0 ∨ (s.ctlrOf n).getLsbD 12 = false) →
        rep.signals.fhi = (on && ev.counterEvent && x))

/-- 60_exceptions.md, section 4, the fault handling interrupt in total: the three causes, each with its enable, and no
other, under the set `FhiBase` of three classes that stands for the lost list (the spec's decision D22; log entry 27,
PRESUMED). `ce` is whether the event is a corrected error event (section 5), in the counter case an input of the event
(D19, log entry 26). -/
def Obligations.FhiInTotal : Prop :=
  ∀ (s : State) (ev : ErrorEvent) (n : Nat) (r : Record) (rest : List Input), EventAt s ev n r rest →
    uncontained s.cfg r (s.ctlrOf n) ev = false →
    ∃ rep on fi d c ce, Reports s rep ∧ ReportingIs r (s.ctlrOf n) on ∧
      ControlIs r.fr.fi r.fixedEnable.fi ((s.ctlrOf n).getLsbD 3) ((s.ctlrOf n).getLsbD 6) ev.dir fi ∧
      (if s.cfg.rasv2 = true ∧ (r.fr.dfi = 0b10#2 ∨ r.fr.dfi = 0b11#2) then
        ControlIs r.fr.dfi false ((s.ctlrOf n).getLsbD 14 ^^ (s.ctlrOf n).getLsbD 3)
          ((s.ctlrOf n).getLsbD 15 ^^ (s.ctlrOf n).getLsbD 6) ev.dir d
       else d = (s.cfg.fhiBase.deferred && fi)) ∧
      ControlIs r.fr.cfi (s.cfg.fhiBase.corrected && fi) ((s.ctlrOf n).getLsbD 8) ((s.ctlrOf n).getLsbD 9) ev.dir c ∧
      (ce = true ↔
        if r.hasCECounter = true ∧ (s.cfg.kind n 12 ≠ .ctrl .ced ∨ (s.ctlrOf n).getLsbD 12 = false) then
          ev.counterEvent = true
        else ev.recordedAs = .corrected) ∧
      (rep.signals.fhi = true ↔ on = true ∧
        ((ev.recordedAs = .uncorrected ∧ s.cfg.fhiBase.uncorrected = true ∧ fi = true) ∨
         (ev.recordedAs = .deferred ∧ d = true) ∨ (ce = true ∧ c = true)))

/-- 60_exceptions.md R135, for every event: where CI exists the critical error interrupt is generated exactly for a
critical error with reporting on and CI = 1, so that with CI = 0 it is not among the signals. -/
def Obligations.CriticalErrorInterrupt : Prop :=
  ∀ (s : State) (ev : ErrorEvent) (n : Nat) (r : Record) (rest : List Input), EventAt s ev n r rest →
    ∃ rep on, Reports s rep ∧ ReportingIs r (s.ctlrOf n) on ∧
      (r.fr.ci = 0b10#2 → rep.signals.cri = (on && ev.critical && (s.ctlrOf n).getLsbD 13)) ∧
      (r.fr.ci ≠ 0b10#2 → rep.signals.cri = (on && ev.critical && r.fixedEnable.ci))

/-- 60_exceptions.md R137. -/
def Obligations.InBandErrorForUncorrectedErrors : Prop :=
  ∀ (s : State) (ev : ErrorEvent) (n : Nat) (r : Record) (rest : List Input), EventAt s ev n r rest →
    uncontained s.cfg r (s.ctlrOf n) ev = false → ev.notCorrectedNotDeferred = true →
    ∃ rep on x, Reports s rep ∧ ReportingIs r (s.ctlrOf n) on ∧
      ControlIs r.fr.ue r.fixedEnable.ue ((s.ctlrOf n).getLsbD 4) ((s.ctlrOf n).getLsbD 7) ev.dir x ∧
      rep.signals.inBandError = (on && x)

/-- 60_exceptions.md, section 7, second rule (read from its position by the spec, log entry 35): an error deferred but
not to the Requester is signalled in band only where the implementation does so and the control enables it. -/
def Obligations.InBandErrorForDeferredErrors : Prop :=
  ∀ (s : State) (ev : ErrorEvent) (n : Nat) (r : Record) (rest : List Input), EventAt s ev n r rest →
    uncontained s.cfg r (s.ctlrOf n) ev = false → ev.notCorrectedNotDeferred = false →
    ∃ rep on x, Reports s rep ∧ ReportingIs r (s.ctlrOf n) on ∧
      ControlIs r.fr.ue r.fixedEnable.ue ((s.ctlrOf n).getLsbD 4) ((s.ctlrOf n).getLsbD 7) ev.dir x ∧
      rep.signals.inBandError = (on && ev.deferredNotToRequester && x && r.deferredAborts)

/-- 60_exceptions.md, sections 2 and 8: what a report says besides its signals. With reporting on the class is recorded
as the event gives it, kept or discarded; with reporting off the node may silently correct the error, unless it fully
disables detection and correction (log entry 30). That a report says what is recorded and whether the syndrome is
discarded, and that it is discarded exactly for a higher priority error, an input of the event, is the model's (log
entries 31 and 26). -/
def Obligations.ReportOfRecording : Prop :=
  ∀ (s : State) (ev : ErrorEvent) (n : Nat) (r : Record) (rest : List Input), EventAt s ev n r rest →
    ∃ rep on, Reports s rep ∧ ReportingIs r (s.ctlrOf n) on ∧
      (on = true → rep.recorded = ev.recordedAs ∧ rep.silentlyCorrected = false ∧
        (rep.syndromeDiscarded = true ↔ ev.recordedAs ≠ .unrecorded ∧ ev.higherPriorityHeld = true)) ∧
      (on = false → rep.recorded = .unrecorded ∧ rep.syndromeDiscarded = false ∧
        (r.fullyDisables = true → rep.silentlyCorrected = false))

/-- 60_exceptions.md, section 8: a discarded syndrome has no bearing on ERI and FHI, as the source says, nor on CRI and
InBandError, of which the source says nothing: there it is the spec's inference (log entry 38, DEDUCED). -/
def Obligations.DiscardedSyndromeHasNoBearing : Prop :=
  ∀ (s : State) (ev : ErrorEvent) (b : Bool) (n : Nat) (r : Record) (rest : List Input), EventAt s ev n r rest →
    ∃ rep rep', Reports s rep ∧
      Reports { s with inputs := .event { ev with higherPriorityHeld := b } :: rest } rep' ∧
      rep'.signals = rep.signals ∧ rep'.recorded = rep.recorded

/-- 10_state.md, section 4, and 00_scope.md, section 3: RES0 and IMPLEMENTATION DEFINED bits affect no report. Two states
that differ only in their registers, and whose governing registers agree in every control bit, give the same report of
the same event. For IMPLEMENTATION DEFINED bits this is the spec's assumption (log entry 6). -/
def Obligations.OnlyControlsAffectReports : Prop :=
  ∀ (s : State) (regs : List (Nat × Word)) (ev : ErrorEvent) (n : Nat) (r : Record) (rest : List Input),
    EventAt s ev n r rest →
    (∀ i c, s.cfg.kind n i = .ctrl c →
      (s.ctlrOf n).getLsbD i = (({ s with ctlr := regs } : State).ctlrOf n).getLsbD i) →
    ∃ rep, Reports s rep ∧ Reports { s with ctlr := regs } rep

/-- 60_exceptions.md, section 2: under the value 0b11 the low bit governs reads and the high bit governs writes. An event
on a read is judged alike whatever the write bits 5, 6, 7, 9, 11, 15 hold. -/
def Obligations.WriteControlsDoNotAffectReads : Prop :=
  ∀ (s : State) (regs : List (Nat × Word)) (ev : ErrorEvent) (n : Nat) (r : Record) (rest : List Input),
    EventAt s ev n r rest → ev.dir = .read →
    (∀ i, i ∉ [5, 6, 7, 9, 11, 15] →
      (s.ctlrOf n).getLsbD i = (({ s with ctlr := regs } : State).ctlrOf n).getLsbD i) →
    ∃ rep, Reports s rep ∧ Reports { s with ctlr := regs } rep

/-- 60_exceptions.md, section 2: with every feature split, an event on a write is judged alike whatever the read bits
2, 3, 4, 8, 10, 14 hold. -/
def Obligations.ReadControlsDoNotAffectWrites : Prop :=
  ∀ (s : State) (regs : List (Nat × Word)) (ev : ErrorEvent) (n : Nat) (r : Record) (rest : List Input),
    EventAt s ev n r rest → ev.dir = .write → s.cfg.rasv2 = true →
    r.fr.ui = 0b11#2 → r.fr.fi = 0b11#2 → r.fr.ue = 0b11#2 → r.fr.cfi = 0b11#2 → r.fr.dui = 0b11#2 →
    r.fr.dfi = 0b11#2 →
    (∀ i, i ∉ [2, 3, 4, 8, 10, 14] →
      (s.ctlrOf n).getLsbD i = (({ s with ctlr := regs } : State).ctlrOf n).getLsbD i) →
    ∃ rep, Reports s rep ∧ Reports { s with ctlr := regs } rep

-- The whole machine ----------------------------------------------------------------------------------------

/-- The invariant of Safety.lean is kept by every step: the registers held are exactly the present ones, Hardwired bits
hold 0, and the bookkeeping agrees (10_state.md, sections 1 and 4). -/
def Obligations.StepKeepsInvariant : Prop :=
  ∀ s t : State, s.Inv → step s = .next t → t.Inv

/-- The invariant holds right after reset, for every well-formed configuration. -/
def Obligations.ResetMeetsInvariant : Prop :=
  (∀ cfg : Config, cfg.wf = true → (State.resetFor cfg).Inv) ∧ State.reset.Inv

/-- 10_state.md, section 4: no field is changed by the hardware itself. If a step changes the register of record n, the
input was a reset or a write access to record n or to a part of its register. -/
def Obligations.OnlyWriteOrResetChangesRegister : Prop :=
  ∀ (s t : State) (n : Nat), step s = .next t → t.ctlrOf n ≠ s.ctlrOf n →
    ∃ i rest, s.inputs = i :: rest ∧ ¬ LeavesRegister s.cfg n i

/-- 60_exceptions.md, section 8: only error events generate signals; a step gives out nothing, or the result of one read
of a register or of a part of one, or the report of the event that was its input. -/
def Obligations.OnlyEventsGenerateSignals : Prop :=
  ∀ s t : State, step s = .next t →
    t.outputs = s.outputs ∨ (∃ n v, t.outputs = .readData n v :: s.outputs) ∨
    (∃ n k bs, t.outputs = .partData n k bs :: s.outputs) ∨
    ∃ ev rest rep, s.inputs = .event ev :: rest ∧ t.outputs = .event rep :: s.outputs ∧ rep.m = ev.m

/-- 00_scope.md, sections 1 and 3: the parameters never change, and inputs are taken one by one in their order. -/
def Obligations.StepKeepsParameters : Prop :=
  ∀ s t : State, step s = .next t → t.cfg = s.cfg ∧ t.inputs = s.inputs.tail ∧ s.draws ≤ t.draws

/-- 10_state.md, section 1, and 40_register_access.md, section 2: the registers of different nodes share no state. Two
states that agree on the governing register give the same report, whatever the other registers hold. -/
def Obligations.OtherNodesDoNotAffectReport : Prop :=
  ∀ (s : State) (regs : List (Nat × Word)) (ev : ErrorEvent) (n : Nat) (r : Record) (rest : List Input),
    EventAt s ev n r rest → ({ s with ctlr := regs } : State).ctlrOf n = s.ctlrOf n →
    ∃ rep, Reports s rep ∧ Reports { s with ctlr := regs } rep

/-- 70_reset_and_hazards.md, sections 2 and 3: after ED is written 0 the node stays silent, through any number of steps,
until a reset or a write to its register. That the write takes effect at once is the spec's decision D8 (log entry 20). -/
def Obligations.DisabledNodeStaysSilent : Prop :=
  ∀ (k : Nat) (s t : State) (n : Nat) (r : Record),
    s.cfg.presentRecord n = some r → r.fr.ed = 0b10#2 → (s.ctlrOf n).getLsbD 0 = false →
    (∀ i ∈ s.inputs.take k, LeavesRegister s.cfg n i) → runSteps k s = .next t →
    (t.ctlrOf n).getLsbD 0 = false ∧
    ∀ rep, Output.event rep ∈ t.outputs → rep.node = n →
      Output.event rep ∈ s.outputs ∨ rep.signals = Signals.none

/-- 30_encoding.md, section 4: no access to a register raises a fault. Under a well-formed configuration a decoded access
completes, but for a write to a present register outside the write policy, which is refused (the spec's decision D10). -/
def Obligations.DecodedAccessCompletesOrBreaksPolicy : Prop :=
  ∀ (s : State) (bytes : List Byte) (rest : List Input) (i : Instr),
    s.cfg.wf = true → s.inputs = .access bytes :: rest → decode bytes = .ok i →
    ((∃ t, step s = .next t) ∨ step s = .refused .writePolicy) ∧
    (step s = .refused .writePolicy ↔ ∃ off v n, i = .write off v ∧ recordOf off = .ok n ∧
      s.cfg.present n = true ∧ ¬ WritePolicy (s.lastReadOf n) v)

/-- 10_state.md, section 4, and 40_register_access.md, section 2: a register holds its value, and the parameters theirs,
through any number of steps whose inputs are no reset and no write to it. -/
def Obligations.RegisterHeldThroughQuietSteps : Prop :=
  ∀ (k : Nat) (s t : State) (n : Nat),
    (∀ i ∈ s.inputs.take k, LeavesRegister s.cfg n i) → runSteps k s = .next t →
    t.ctlrOf n = s.ctlrOf n ∧ t.cfg = s.cfg ∧ t.inputs = s.inputs.drop k

-- Parts of a register --------------------------------------------------------------------------------------
--
-- 20_memory.md, section 2, and the spec's decision D4: accesses of other sizes are refused unless `AccessSizes` admits
-- them. That an admitted one is the part of the 64-bit access which its bytes are is the model's (log entry 16).

/-- The byte that holds each bit of a register, in either byte order (20_memory.md, section 2), and the bytes of a part:
those that a write of the part gives it, with 0 in the other bytes. Parts are the model's (log entry 16). -/
def Obligations.PartBytesView : Prop :=
  ∀ (order : ByteOrder) (v : Word) (p : Part) (bs : List Byte),
    (∀ i, i < 64 → ∃ x, (wordBytes order v)[byteAt order i]? = some x ∧ x.getLsbD (i % 8) = v.getLsbD i) ∧
    (p.fits = true → bs.length = p.size →
      p.bytesOf order (p.wordOf order bs) = bs ∧ (p.bytesOf order v).length = p.size ∧
      (∀ i, p.covers order i = false → (p.wordOf order bs).getLsbD i = false) ∧
      ∀ j, j < p.size → (p.bytesOf order v)[j]? = (wordBytes order v)[p.first + j]?)

/-- A read of a part of a present register gives the bytes that a read of the register returns there, changes no register,
and is the most recent read of its bits alone. The model's, log entry 16. -/
def Obligations.PartReadOfPresentRegister : Prop :=
  ∀ (s : State) (p : Part) (a : Nat) (r : Record) (rest : List Input),
    PartAccessAt s (.read a p.size) p r rest →
    ∃ t v w, step s = .next t ∧
      t.outputs = .partData p.n p.first (p.bytesOf s.cfg.byteOrder v) :: s.outputs ∧
      (∀ i, i < 64 →
        (∀ c, s.cfg.kind p.n i = .ctrl c → v.getLsbD i = (s.ctlrOf p.n).getLsbD i) ∧
        (s.cfg.kind p.n i = .res0 → v.getLsbD i = (r.res0Stored.getLsbD i && (s.ctlrOf p.n).getLsbD i)) ∧
        (s.cfg.kind p.n i = .impdef → v.getLsbD i = (s.drawn p.n).getLsbD i)) ∧
      t.lastReadOf p.n = some w ∧
      (∀ i, i < 64 → w.getLsbD i =
        if p.covers s.cfg.byteOrder i then v.getLsbD i else ((s.lastReadOf p.n).getD 0).getLsbD i) ∧
      t.ctlr = s.ctlr ∧ t.cfg = s.cfg ∧ t.inputs = rest ∧ t.draws = s.draws + 1 ∧
      ∀ m, m ≠ p.n → t.lastReadOf m = s.lastReadOf m

/-- A write of a part of a present register, within the policy, gives the bits of the part the value written, as a write of
the register would, and leaves all other bits and registers as they were. The model's, log entry 16. -/
def Obligations.PartWriteOfPresentRegister : Prop :=
  ∀ (s : State) (p : Part) (a : Nat) (bs : List Byte) (r : Record) (rest : List Input),
    PartAccessAt s (.write a bs) p r rest → WritePolicy (s.lastReadOf p.n) (p.wordOf s.cfg.byteOrder bs) →
    ∃ t, step s = .next t ∧
      (∀ i, i < 64 →
        (p.covers s.cfg.byteOrder i = false → (t.ctlrOf p.n).getLsbD i = (s.ctlrOf p.n).getLsbD i) ∧
        (∀ c, p.covers s.cfg.byteOrder i = true → s.cfg.kind p.n i = .ctrl c →
          (t.ctlrOf p.n).getLsbD i = (p.wordOf s.cfg.byteOrder bs).getLsbD i) ∧
        (p.covers s.cfg.byteOrder i = true → s.cfg.kind p.n i = .res0 →
          (t.ctlrOf p.n).getLsbD i =
            if r.res0Stored.getLsbD i then (p.wordOf s.cfg.byteOrder bs).getLsbD i
            else (s.ctlrOf p.n).getLsbD i)) ∧
      (∀ m, m ≠ p.n → t.ctlrOf m = s.ctlrOf m) ∧
      t.lastRead = s.lastRead ∧ t.outputs = s.outputs ∧ t.cfg = s.cfg ∧ t.inputs = rest ∧ t.draws = s.draws + 1

/-- A write of a part of a present register is refused by the write policy exactly when the bits written are outside it
(the spec's decision D10). The model's, log entry 16. -/
def Obligations.PartWriteIsRefusedExactlyOutsidePolicy : Prop :=
  ∀ (s : State) (p : Part) (a : Nat) (bs : List Byte) (r : Record) (rest : List Input),
    PartAccessAt s (.write a bs) p r rest →
    (step s = .refused .writePolicy ↔ ¬ WritePolicy (s.lastReadOf p.n) (p.wordOf s.cfg.byteOrder bs))

/-- A part of an absent register reads 0 and a write to it changes nothing (the spec's decision D20, for the register). The
model's, log entry 16. -/
def Obligations.AbsentPartAccess : Prop :=
  ∀ (s : State) (b : BusAccess) (p : Part) (rest : List Input),
    s.cfg.wf = true → s.inputs = .bus b :: rest → busToPart s.cfg b = .ok p → s.cfg.present p.n = false →
    (b.dir = .write → step s = .next { s with inputs := rest }) ∧
    (b.dir = .read → ∃ t, step s = .next t ∧
      t.outputs = .partData p.n p.first (List.replicate p.size 0) :: s.outputs ∧
      t.ctlr = s.ctlr ∧ t.cfg = s.cfg ∧ t.inputs = rest ∧ t.draws = s.draws ∧
      ∀ m, m ≠ p.n → t.lastReadOf m = s.lastReadOf m)

/-- Where 4-byte accesses are admitted, the two halves of a word, written one after the other, leave the controls and the
Stored bits that one write of the word leaves. The model's, log entry 16. -/
def Obligations.HalfWritesMakeTheWrite : Prop :=
  ∀ (s : State) (n : Nat) (r : Record) (v : Word) (rest : List Input),
    s.cfg.wf = true → s.cfg.presentRecord n = some r → 4 ∈ s.cfg.accessSizes → WritePolicy (s.lastReadOf n) v →
    s.inputs = .bus (.write (s.cfg.rasBase + offsetOf n) ((wordBytes s.cfg.byteOrder v).take 4)) ::
      .bus (.write (s.cfg.rasBase + offsetOf n + 4) ((wordBytes s.cfg.byteOrder v).drop 4)) :: rest →
    ∃ t, runSteps 2 s = .next t ∧ t.inputs = rest ∧
      ∀ i, i < 64 →
        (∀ c, s.cfg.kind n i = .ctrl c → (t.ctlrOf n).getLsbD i = v.getLsbD i) ∧
        (s.cfg.kind n i = .res0 → (t.ctlrOf n).getLsbD i =
          if r.res0Stored.getLsbD i then v.getLsbD i else (s.ctlrOf n).getLsbD i)

/-- 20_memory.md, sections 1 and 2 (the spec's decisions D3, D5): a bus access of a size other than 8, admitted or not,
that does not stand at a multiple of its size inside the eight bytes of one register is refused. Which parts of a register
an admitted size reaches is the model's, log entry 16. -/
def Obligations.AccessOutsidePartsIsRefused : Prop :=
  ∀ (s : State) (b : BusAccess) (rest : List Input),
    s.inputs = .bus b :: rest → b.size ≠ 8 →
    (∀ p : Part, p.n ≤ 65534 → p.size = b.size → p.fits = true →
      b.addr ≠ s.cfg.rasBase + offsetOf p.n + p.first) →
    ∃ e, step s = .refused e
end

