-- ==== Sys2Proof/Laws/Bits.lean ====
section
/-!
SUPPORT. Words given bit by bit, and numbers as bytes.
-/

namespace Sys2Proof

@[simp] theorem getLsbD_bitsOf (f : Nat → Bool) (w i : Nat) :
    (bitsOf f w).getLsbD i = (decide (i < w) && f i) := by
  induction w with
  | zero => simp [bitsOf]
  | succ w ih =>
    rw [bitsOf, BitVec.getLsbD_cons, ih]
    by_cases h : i = w
    · simp [h]
    · simp only [h, if_false]
      congr 1
      simp only [decide_eq_decide]
      omega

@[simp] theorem natBytes_length (k x : Nat) : (natBytes k x).length = k := by
  induction k generalizing x with
  | zero => rfl
  | succ k ih => simp [natBytes, ih]

/-- The bytes of a number give it back, up to the bytes there are. -/
theorem bytesNat_natBytes (k x : Nat) : bytesNat (natBytes k x) = x % 256 ^ k := by
  induction k generalizing x with
  | zero => simp [natBytes, bytesNat, Nat.mod_one]
  | succ k ih =>
    have h : 256 ^ (k + 1) = 256 * 256 ^ k := by rw [pow_succ, Nat.mul_comm]
    rw [natBytes, bytesNat, ih, BitVec.toNat_ofNat, h, Nat.mod_mul]

/-- A list of bytes is given back by its number. -/
theorem natBytes_bytesNat (bs : List Byte) : natBytes bs.length (bytesNat bs) = bs := by
  induction bs with
  | nil => rfl
  | cons b bs ih =>
    have h := b.isLt
    have h1 : (b.toNat + 256 * bytesNat bs) / 256 = bytesNat bs := by omega
    have h2 : BitVec.ofNat 8 (b.toNat + 256 * bytesNat bs) = b := by
      apply BitVec.eq_of_toNat_eq
      simp only [BitVec.toNat_ofNat]
      omega
    rw [List.length_cons, bytesNat, natBytes, h1, h2, ih]

theorem bytesNat_lt (bs : List Byte) : bytesNat bs < 256 ^ bs.length := by
  induction bs with
  | nil => simp [bytesNat]
  | cons b bs ih =>
    have h := b.isLt
    rw [bytesNat, List.length_cons, pow_succ]
    omega

/-- The byte-level view of a word gives the word back, in either byte order. -/
@[simp] theorem bytesWord_wordBytes (order : ByteOrder) (v : Word) :
    bytesWord order (wordBytes order v) = v := by
  have h : BitVec.ofNat 64 (bytesNat (natBytes 8 v.toNat)) = v := by
    apply BitVec.eq_of_toNat_eq
    rw [bytesNat_natBytes, BitVec.toNat_ofNat]
    have := v.isLt
    omega
  cases order <;> simp [bytesWord, wordBytes, h]

@[simp] theorem wordBytes_length (order : ByteOrder) (v : Word) : (wordBytes order v).length = 8 := by
  cases order <;> simp [wordBytes]

theorem getLsbD_mergeWord {w : Nat} (mask old new : BitVec w) (i : Nat) :
    (mergeWord mask old new).getLsbD i = if mask.getLsbD i then new.getLsbD i else old.getLsbD i := by
  by_cases hi : i < w
  · cases hm : mask.getLsbD i <;>
      rw [mergeWord, BitVec.getLsbD_or, BitVec.getLsbD_and, BitVec.getLsbD_and, BitVec.getLsbD_not, hm] <;> simp [hi]
  · rw [BitVec.getLsbD_of_ge _ _ (by omega), BitVec.getLsbD_of_ge new _ (by omega),
      BitVec.getLsbD_of_ge old _ (by omega), ite_self]

@[simp] theorem mergeWord_zero {w : Nat} (mask : BitVec w) : mergeWord mask 0 0 = 0 := by simp [mergeWord]

@[simp] theorem getLsbD_mask (p : Part) (order : ByteOrder) (i : Nat) :
    (p.mask order).getLsbD i = (decide (i < 64) && p.covers order i) := getLsbD_bitsOf _ _ _

end Sys2Proof
end

