-- ==== Sys2Proof/Laws/Decode.lean ====
section
/-!
SUPPORT. The fields of an access word, and what the decoder answers.
-/

namespace Sys2Proof

variable (dir : Dir) (off : Offset) (data : Word)

@[simp] theorem accessBytes_length : (accessBytes dir off data).length = 11 := by simp [accessBytes]

@[simp] theorem encode_length (i : Instr) : (encode i).length = 11 := by cases i <;> simp [encode]

/-- Every bit of an access word (30_encoding.md R80; log entry 9). -/
theorem getLsbD_accessWord (i : Nat) : (accessWord dir off data).getLsbD i =
    if i < 22 then off.getLsbD i else if i = 22 then decide (dir = .write)
    else if i = 23 then false else data.getLsbD (i - 24) := by
  have h : (accessWord dir off data).getLsbD i =
      BitVec.getLsbD (w := 64 + 1 + 1 + 22) (data ++ 0#1 ++ dir.bit ++ off) i := rfl
  rw [h, BitVec.getLsbD_append, BitVec.getLsbD_append, BitVec.getLsbD_append]
  by_cases h1 : i < 22
  · simp [h1]
  · by_cases h2 : i = 22
    · subst h2; cases dir <;> rfl
    · by_cases h3 : i = 23
      · subst h3; simp
      · simp [h1, h2, h3, show ¬ i - 22 < 1 by omega, show ¬ i - 22 - 1 < 1 by omega,
          show i - 22 - 1 - 1 = i - 24 by omega]

theorem accessWord_off : (accessWord dir off data).extractLsb' 0 22 = off := by
  apply BitVec.eq_of_getLsbD_eq
  intro i hi
  rw [BitVec.getLsbD_extractLsb', getLsbD_accessWord]
  simp [hi]

theorem accessWord_data : (accessWord dir off data).extractLsb' 24 64 = data := by
  apply BitVec.eq_of_getLsbD_eq
  intro i hi
  rw [BitVec.getLsbD_extractLsb', getLsbD_accessWord, if_neg (by omega), if_neg (by omega), if_neg (by omega)]
  simp [hi]

theorem accessWord_reserved : (accessWord dir off data).getLsbD 23 = false := by
  rw [getLsbD_accessWord]; simp

theorem accessWord_dir : (accessWord dir off data).getLsbD 22 = decide (dir = .write) := by
  rw [getLsbD_accessWord]; simp

/-- The decoder reads from the bytes of an access triple the triple's own fields. -/
@[simp] theorem decode_accessBytes : decode (accessBytes dir off data) = decodeAccess dir off data := by
  have h : BitVec.ofNat 88 (bytesNat (accessBytes dir off data)) = accessWord dir off data := by
    apply BitVec.eq_of_toNat_eq
    rw [accessBytes, bytesNat_natBytes, BitVec.toNat_ofNat]
    have := (accessWord dir off data).isLt
    omega
  simp only [decode, accessBytes_length, ne_eq, not_true_eq_false, if_false, h, decodeWord, accessWord_reserved,
    accessWord_off, accessWord_data, accessWord_dir, Bool.false_eq_true]
  cases dir <;> rfl

/-- An offset selects a record exactly when it is well formed (30_encoding.md R82). -/
theorem recordOf_of_wf {off : Offset} (h : Offset.wf off = true) :
    recordOf off = .ok (off.extractLsb' 6 16).toNat := by
  simp only [Offset.wf, Offset.lowMatches, Offset.indexInRange, Bool.and_eq_true, beq_iff_eq, bne_iff_ne] at h
  simp [recordOf, h.1, h.2]

/-- The two ways in which an offset selects no record, and the one in which it does (20_memory.md R62, R64). -/
theorem recordOf_cases (off : Offset) :
    (off.toNat % 64 ≠ 8 ∧ recordOf off = .error .undefinedOffset) ∨
    (off.toNat % 64 = 8 ∧ off.toNat / 64 = 65535 ∧ recordOf off = .error .indexOutOfRange) ∨
    (off.toNat % 64 = 8 ∧ off.toNat / 64 ≤ 65534 ∧ recordOf off = .ok (off.toNat / 64)) := by
  have h0 : (off.extractLsb' 0 6).toNat = off.toNat % 64 := by simp [BitVec.extractLsb'_toNat]
  have h6 : (off.extractLsb' 6 16).toNat = off.toNat / 64 := by
    have := off.isLt
    simp only [BitVec.extractLsb'_toNat, Nat.shiftRight_eq_div_pow]
    omega
  have e0 : off.extractLsb' 0 6 = 0b001000#6 ↔ off.toNat % 64 = 8 := by
    rw [← BitVec.toNat_inj, h0]; rfl
  have e6 : off.extractLsb' 6 16 = 0xFFFF#16 ↔ off.toNat / 64 = 65535 := by
    rw [← BitVec.toNat_inj, h6]; rfl
  have := off.isLt
  unfold recordOf
  by_cases a : off.toNat % 64 = 8
  · by_cases b : off.toNat / 64 = 65535
    · exact .inr (.inl ⟨a, b, by rw [if_neg (by simp [e0, a]), if_pos (e6.mpr b)]⟩)
    · refine .inr (.inr ⟨a, by omega, ?_⟩)
      rw [if_neg (by simp [e0, a]), if_neg (by simp [e6, b]), h6]
  · exact .inl ⟨a, by rw [if_pos (by simp [e0, a])]⟩

/-- A record that an offset selects is in range. -/
theorem recordOf_le {off : Offset} {n : Nat} (h : recordOf off = .ok n) : n ≤ maxIndex := by
  rcases recordOf_cases off with ⟨-, e⟩ | ⟨-, -, e⟩ | ⟨-, hl, e⟩
  · simp [e] at h
  · simp [e] at h
  · rw [e] at h
    cases h
    exact hl

end Sys2Proof
end

