-- ==== Sys2Proof/Laws/Params.lean ====
section
/-!
SUPPORT. What the parameter readings say, and what a well-formed configuration guarantees, each once.
-/

namespace Sys2Proof

theorem find_some {cfg : Config} {n : Nat} {r : Record} (h : cfg.find n = some r) :
    r.n = n ∧ r ∈ cfg.records := by
  unfold Config.find at h
  exact ⟨by simpa using List.find?_some h, List.mem_of_find?_eq_some h⟩

theorem presentRecord_some {cfg : Config} {n : Nat} {r : Record} :
    cfg.presentRecord n = some r ↔ cfg.find n = some r ∧ r.implemented = true ∧ r.firstInNode = true := by
  simp [Config.presentRecord, Option.filter_eq_some_iff, Record.present]

theorem implemented_iff {cfg : Config} {n : Nat} :
    cfg.implemented n = true ↔ ∃ r, cfg.find n = some r ∧ r.implemented = true := by
  rw [Config.implemented, Option.isSome_iff_exists]
  exact exists_congr fun r => by rw [Option.filter_eq_some_iff]

theorem nodeFirst_some {cfg : Config} {m n : Nat} :
    cfg.nodeFirst m = some n ↔
      ∃ r, cfg.find m = some r ∧ r.implemented = true ∧ r.nodeFirst = some n := by
  simp only [Config.nodeFirst, Option.bind_eq_some_iff, Option.filter_eq_some_iff, and_assoc]

theorem presentRecord_n {cfg : Config} {n : Nat} {r : Record} (h : cfg.presentRecord n = some r) : r.n = n :=
  (find_some (presentRecord_some.mp h).1).1

/-- The four conditions of a well-formed configuration (00_scope.md R8). -/
theorem wf_iff {cfg : Config} : cfg.wf = true ↔
    indicesRise 0 cfg.records = true ∧
    (∀ r ∈ cfg.records, r.firstIsImplemented = true ∧ cfg.nodeFirstOk r = true ∧ cfg.dfiMatchesFi r = true) ∧
    cfg.rasBase % 8 = 0 := by
  simp [Config.wf, and_assoc]

theorem indicesRise_mem {lo : Nat} {rs : List Record} (h : indicesRise lo rs = true) :
    ∀ r ∈ rs, lo ≤ r.n ∧ r.n ≤ maxIndex := by
  induction rs generalizing lo with
  | nil => simp
  | cons q rs ih =>
    simp only [indicesRise, Bool.and_eq_true, decide_eq_true_eq] at h
    intro r hr
    rcases List.mem_cons.mp hr with rfl | hr
    · exact h.1
    · have := ih h.2 r hr; omega

/-- In a list of rising indices, the first record with an index is the only one. -/
theorem find_eq_of_mem {lo : Nat} {rs : List Record} (h : indicesRise lo rs = true) {r : Record} (hr : r ∈ rs) :
    rs.find? (fun q => q.n == r.n) = some r := by
  induction rs generalizing lo with
  | nil => simp at hr
  | cons q rs ih =>
    simp only [indicesRise, Bool.and_eq_true, decide_eq_true_eq] at h
    rcases List.mem_cons.mp hr with rfl | hr
    · simp
    · have := (indicesRise_mem h.2 r hr).1
      rw [List.find?_cons_of_neg (by simp; omega)]
      exact ih h.2 hr

theorem find_of_mem {cfg : Config} (h : cfg.wf = true) {r : Record} (hr : r ∈ cfg.records) :
    cfg.find r.n = some r := find_eq_of_mem (wf_iff.mp h).1 hr

/-- The present indices are those of the present records. -/
theorem mem_presentIndices {cfg : Config} (h : cfg.wf = true) {n : Nat} :
    n ∈ cfg.presentIndices ↔ ∃ r, cfg.presentRecord n = some r := by
  simp only [Config.presentIndices, List.mem_map, List.mem_filter, presentRecord_some]
  constructor
  · rintro ⟨r, ⟨hr, hp⟩, rfl⟩
    simp only [Record.present, Bool.and_eq_true] at hp
    exact ⟨r, find_of_mem h hr, hp⟩
  · rintro ⟨r, hf, hp⟩
    obtain ⟨rfl, hr⟩ := find_some hf
    exact ⟨r, ⟨hr, by simp [Record.present, hp]⟩, rfl⟩

/-- A present register's index is in range (00_scope.md R1). -/
theorem presentRecord_le {cfg : Config} (h : cfg.wf = true) {n : Nat} {r : Record}
    (hp : cfg.presentRecord n = some r) : n ≤ maxIndex := by
  obtain ⟨rfl, hr⟩ := find_some (presentRecord_some.mp hp).1
  exact (indicesRise_mem (wf_iff.mp h).1 r hr).2

/-- R8 item 3, for a present register. -/
theorem wf_dfi {cfg : Config} (h : cfg.wf = true) {n : Nat} {r : Record} (hp : cfg.presentRecord n = some r)
    (hv : cfg.rasv2 = true) :
    (r.fr.dfi = 0b10#2 → r.fr.fi = 0b10#2) ∧ (r.fr.dfi = 0b11#2 → r.fr.fi = 0b11#2) := by
  obtain ⟨hf, -, h1⟩ := presentRecord_some.mp hp
  have hd := ((wf_iff.mp h).2.1 r (find_some hf).2).2.2
  simp only [Config.dfiMatchesFi, hv, h1, Bool.and_self, Bool.not_true, Bool.false_or, Bool.and_eq_true,
    Bool.or_eq_true, bne_iff_ne, beq_iff_eq] at hd
  exact ⟨fun e => hd.1.resolve_left (fun n => n e), fun e => hd.2.resolve_left (fun n => n e)⟩

/-- R8 item 2: an implemented record has a node, whose first record has a register. -/
theorem wf_node {cfg : Config} (h : cfg.wf = true) {m : Nat} (hm : cfg.implemented m = true) :
    ∃ n r, cfg.nodeFirst m = some n ∧ cfg.presentRecord n = some r ∧ n ≤ m ∧ cfg.nodeFirst n = some n := by
  obtain ⟨p, hf, hi⟩ := implemented_iff.mp hm
  obtain ⟨rfl, hp⟩ := find_some hf
  have hn := ((wf_iff.mp h).2.1 p hp).2.1
  simp only [Config.nodeFirstOk, Bool.and_eq_true] at hn
  cases hnf : p.nodeFirst with
  | none => simp [hnf, hi] at hn
  | some f =>
    cases hq : cfg.find f with
    | none => simp [hnf, hq] at hn
    | some q =>
      simp only [hnf, hq, Bool.and_eq_true, decide_eq_true_eq, beq_iff_eq] at hn
      obtain ⟨-, ⟨-, hle⟩, hqf, hqn⟩ := hn
      have hqi := ((wf_iff.mp h).2.1 q (find_some hq).2).1
      simp only [Record.firstIsImplemented, hqf, Bool.not_true, Bool.false_or] at hqi
      exact ⟨f, q, nodeFirst_some.mpr ⟨p, hf, hi, hnf⟩, presentRecord_some.mpr ⟨hq, hqi, hqf⟩, hle,
        nodeFirst_some.mpr ⟨q, hq, hqi, hqn⟩⟩

end Sys2Proof
end

