-- ==== Sys2Proof/Laws/Fields.lean ====
section
/-!
SUPPORT. The layout, and what a reset, a read and a write do to each kind of bit, one lemma per kind.
-/

namespace Sys2Proof

theorem kind_of_present {cfg : Config} {n : Nat} {r : Record} (h : cfg.presentRecord n = some r) (i : Nat) :
    cfg.kind n i = kindPresent cfg.rasv2 r.fr i := by
  simp [Config.kind, h]

theorem bitWhen_ne_impdef (b : Bool) (c : Ctrl) : bitWhen b c ≠ .impdef := by
  unfold bitWhen; split <;> simp

theorem lowBit_ne_impdef (f : BitVec 2) (a b : Ctrl) : lowBit f a b ≠ .impdef := by
  unfold lowBit; split
  · simp
  · split <;> simp

/-- A bit is IMPLEMENTATION DEFINED exactly at 1 and from 32 to 63, under every configuration (10_state.md R26,
R42). -/
theorem kindPresent_impdef (v2 : Bool) (fr : FR) (i : Nat) :
    kindPresent v2 fr i = .impdef ↔ isImpdefBit i = true := by
  unfold kindPresent isImpdefBit
  split
  case h_17 h0 h1 _ _ _ _ _ _ _ _ _ _ _ _ _ _ =>
    have : i ≠ 1 := fun e => h1 e
    split <;> simp_all
  case h_15 => split <;> simp [lowBit_ne_impdef]
  all_goals simp [bitWhen_ne_impdef, lowBit_ne_impdef]

theorem bitWhen_ctrl {b : Bool} {c d : Ctrl} (h : bitWhen b c = .ctrl d) : d = c := by
  unfold bitWhen at h
  split at h <;> simp_all

theorem lowBit_ctrl {f : BitVec 2} {a b d : Ctrl} (h : lowBit f a b = .ctrl d) : d = a ∨ d = b := by
  unfold lowBit at h
  split at h
  · simp_all
  · split at h <;> simp_all

/-- A control stands at its own position (10_state.md R28 to R43). -/
theorem kindPresent_position {v2 : Bool} {fr : FR} {i : Nat} {c : Ctrl} (h : kindPresent v2 fr i = .ctrl c) :
    i = c.position := by
  unfold kindPresent at h
  split at h
  case h_2 => simp at h
  case h_17 => split at h <;> simp at h
  case h_15 =>
    split at h
    · rcases lowBit_ctrl h with rfl | rfl <;> rfl
    · simp at h
  all_goals first
    | rcases lowBit_ctrl h with rfl | rfl <;> rfl
    | rw [bitWhen_ctrl h]; rfl

theorem kindPresent_ctrl_lt {v2 : Bool} {fr : FR} {i : Nat} {c : Ctrl} (h : kindPresent v2 fr i = .ctrl c) :
    i < 16 := by
  rw [kindPresent_position h]
  cases c <;> decide

section Bits

variable {v2 : Bool} {r : Record} {c v d : Word} {i : Nat}

theorem readWord_ctrl {k : Ctrl} (h : kindPresent v2 r.fr i = .ctrl k) :
    (readWord v2 r c d).getLsbD i = c.getLsbD i := by
  have := kindPresent_ctrl_lt h
  simp only [readWord, getLsbD_bitsOf, readBit, h, show i < 64 by omega, decide_true, Bool.true_and]

theorem readWord_res0 (h : kindPresent v2 r.fr i = .res0) :
    (readWord v2 r c d).getLsbD i = (r.res0Stored.getLsbD i && c.getLsbD i) := by
  simp only [readWord, getLsbD_bitsOf, readBit, h]
  by_cases hi : i < 64
  · cases r.res0Stored.getLsbD i <;> simp [hi]
  · simp [hi, BitVec.getLsbD_of_ge c i (by omega)]

theorem readWord_impdef (h : kindPresent v2 r.fr i = .impdef) :
    (readWord v2 r c d).getLsbD i = (decide (i < 64) && d.getLsbD i) := by
  simp only [readWord, getLsbD_bitsOf, readBit, h]

theorem writeWord_ctrl {k : Ctrl} (h : kindPresent v2 r.fr i = .ctrl k) :
    (writeWord v2 r c v d).getLsbD i = v.getLsbD i := by
  have := kindPresent_ctrl_lt h
  simp only [writeWord, getLsbD_bitsOf, writeBit, h, show i < 64 by omega, decide_true, Bool.true_and]

theorem writeWord_res0 (h : kindPresent v2 r.fr i = .res0) :
    (writeWord v2 r c v d).getLsbD i = if r.res0Stored.getLsbD i then v.getLsbD i else c.getLsbD i := by
  simp only [writeWord, getLsbD_bitsOf, writeBit, h]
  by_cases hi : i < 64
  · simp [hi]
  · simp [hi, BitVec.getLsbD_of_ge c i (by omega), BitVec.getLsbD_of_ge v i (by omega)]

theorem resetWord_hardwired (h : Machine.hardwired v2 r i = true) : (resetWord v2 r d).getLsbD i = false := by
  simp only [Machine.hardwired, Bool.and_eq_true, beq_iff_eq, Bool.not_eq_true'] at h
  simp [resetWord, resetBit, h.1, h.2]

theorem resetWord_ed (h : r.fr.ed = 0b10#2) : (resetWord v2 r d).getLsbD 0 = r.coldResetED := by
  simp only [resetWord, getLsbD_bitsOf, resetBit, kindPresent, bitWhen, h]
  simp

theorem resetWord_other {k : Ctrl} (h : kindPresent v2 r.fr i = .ctrl k) (hi : i ≠ 0) (he : r.fr.ed = 0b10#2)
    (h1 : r.coldResetED = true) : (resetWord v2 r d).getLsbD i = r.coldResetOther.getLsbD i := by
  have h64 := kindPresent_ctrl_lt h
  have h0 : kindPresent v2 r.fr 0 = .ctrl .ed := by simp [kindPresent, bitWhen, he]
  have hk : k ≠ .ed := by
    rintro rfl
    exact hi (kindPresent_position h)
  simp only [resetWord, getLsbD_bitsOf, resetBit, h, h0, h1, show i < 64 by omega, decide_true, Bool.true_and]
  cases k <;> simp_all

theorem readWord_hardwired (h : Machine.hardwired v2 r i = true) : (readWord v2 r c d).getLsbD i = false := by
  simp only [Machine.hardwired, Bool.and_eq_true, beq_iff_eq, Bool.not_eq_true'] at h
  simp [readWord_res0 h.1, h.2]

theorem writeWord_hardwired (h : Machine.hardwired v2 r i = true) :
    (writeWord v2 r c v d).getLsbD i = c.getLsbD i := by
  simp only [Machine.hardwired, Bool.and_eq_true, beq_iff_eq, Bool.not_eq_true'] at h
  simp [writeWord_res0 h.1, h.2]

end Bits

/-- The admission check is the policy in the spec's words (10_state.md R45). -/
theorem sbzpAdmits_iff (last : Option Word) (v : Word) :
    sbzpAdmits last v = true ↔ Machine.WritePolicy last v := by
  simp only [sbzpAdmits, List.all_eq_true, List.mem_range, Machine.WritePolicy, sbzpBit, isImpdefBit]
  constructor
  · intro h i hi
    have hb := h i (by omega)
    have hp : (i == 1 || (decide (32 ≤ i) && decide (i < 64))) = true := by simpa using hi
    rw [hp] at hb
    cases last with
    | none => exact .inl (by simpa using hb)
    | some l =>
      simp only [Bool.not_true, Bool.false_or, Bool.or_eq_true, Bool.not_eq_true', beq_iff_eq] at hb
      exact hb.imp_right fun e => ⟨l, rfl, e⟩
  · intro h i hi
    by_cases hp : i = 1 ∨ (32 ≤ i ∧ i < 64)
    · rcases h i hp with hf | ⟨l, rfl, he⟩
      · simp [hf]
      · simp [he]
    · have hn : (i == 1 || (decide (32 ≤ i) && decide (i < 64))) = false := by simpa using hp
      simp [hn]

theorem get_map_filter {rs : List Record} {n : Nat} {r : Record} (h : rs.find? (fun q => q.n == n) = some r)
    (hp : r.present = true) (f : Record → Word) :
    Table.get ((rs.filter Record.present).map (fun q => (q.n, f q))) n = some (f r) := by
  induction rs with
  | nil => simp at h
  | cons q rs ih =>
    by_cases hq : q.n = n
    · have : q = r := by simpa [hq] using h
      subst this
      simp [hp, Table.get, hq]
    · rw [List.find?_cons_of_neg (by simpa using hq)] at h
      by_cases hqp : q.present = true
      · simp [hqp, Table.get, hq, ih h]
      · simp [hqp, ih h]

/-- After a Cold reset each present register holds its reset word (70_reset_and_hazards.md R170). -/
theorem get_resetRegisters {cfg : Config} {n : Nat} {r : Record} (h : cfg.presentRecord n = some r) (k : Nat) :
    Table.get (cfg.resetRegisters k) n = some (resetWord cfg.rasv2 r (Config.draw k n)) := by
  obtain ⟨hf, hi, h1⟩ := presentRecord_some.mp h
  have := get_map_filter hf (by simp [Record.present, hi, h1])
    (fun q => resetWord cfg.rasv2 q (Config.draw k q.n))
  rw [(find_some hf).1] at this
  exact this

@[simp] theorem map_fst_resetRegisters (cfg : Config) (k : Nat) :
    (cfg.resetRegisters k).map Prod.fst = cfg.presentIndices := by
  simp [Config.resetRegisters, Config.presentIndices, Function.comp_def]

end Sys2Proof
end

