-- ==== Sys2Proof/Laws/Table.lean ====
section
/-!
SUPPORT. The basic laws of sparse tables: a read after a write to the same index gives the value written, a write
leaves every other index alone, and a write keeps the canonical form.
-/

namespace Sys2Proof.Table

variable {α : Type}

@[simp] theorem get_put_same (t : List (Nat × α)) (n : Nat) (v : α) : get (put t n v) n = some v := by
  induction t with
  | nil => simp [put, get]
  | cons p t ih =>
    obtain ⟨k, x⟩ := p
    rw [put]
    split
    · simp [get]
    · split
      · simp [get]
      · rw [get, if_neg (by omega), ih]

theorem get_put_other (t : List (Nat × α)) {n m : Nat} (v : α) (h : m ≠ n) : get (put t n v) m = get t m := by
  induction t with
  | nil => simp [put, get, h.symm]
  | cons p t ih =>
    obtain ⟨k, x⟩ := p
    rw [put]
    split
    · rw [get, if_neg h.symm]
    · split
      · next hk => subst hk; rw [get, if_neg h.symm, get, if_neg h.symm]
      · rw [get, get, ih]

theorem wfFrom_mono {t : List (Nat × α)} {a b : Nat} (hab : a ≤ b) (h : wfFrom b t = true) :
    wfFrom a t = true := by
  cases t with
  | nil => rfl
  | cons p t =>
    simp only [wfFrom, Bool.and_eq_true, decide_eq_true_eq] at h ⊢
    exact ⟨⟨by omega, h.1.2⟩, h.2⟩

theorem put_wfFrom {t : List (Nat × α)} {lo n : Nat} (v : α) (hlo : lo ≤ n) (hn : n ≤ maxIndex)
    (h : wfFrom lo t = true) : wfFrom lo (put t n v) = true := by
  induction t generalizing lo with
  | nil => simp [put, wfFrom, hlo, hn]
  | cons p t ih =>
    obtain ⟨k, x⟩ := p
    simp only [wfFrom, Bool.and_eq_true, decide_eq_true_eq] at h
    rw [put]
    split
    · simp only [wfFrom, Bool.and_eq_true, decide_eq_true_eq]
      exact ⟨⟨hlo, hn⟩, ⟨⟨by omega, h.1.2⟩, h.2⟩⟩
    · split
      · simp only [wfFrom, Bool.and_eq_true, decide_eq_true_eq]
        exact ⟨⟨hlo, hn⟩, by subst_vars; exact h.2⟩
      · simp only [wfFrom, Bool.and_eq_true, decide_eq_true_eq]
        exact ⟨h.1, ih (by omega) h.2⟩

/-- A write to an index in range keeps the canonical form. -/
theorem put_wf {t : List (Nat × α)} {n : Nat} (v : α) (hn : n ≤ maxIndex) (h : wf t = true) :
    wf (put t n v) = true := put_wfFrom v (Nat.zero_le n) hn h

/-- A write to an index that a table in canonical form lists leaves the list of indices as it was. -/
theorem map_fst_put {t : List (Nat × α)} {lo n : Nat} (v : α) (h : wfFrom lo t = true)
    (hn : n ∈ t.map Prod.fst) : (put t n v).map Prod.fst = t.map Prod.fst := by
  induction t generalizing lo with
  | nil => simp at hn
  | cons p t ih =>
    obtain ⟨k, x⟩ := p
    simp only [wfFrom, Bool.and_eq_true, decide_eq_true_eq] at h
    rw [put]
    have hlow : ∀ {t : List (Nat × α)} {a : Nat}, wfFrom a t = true → ∀ m ∈ t.map Prod.fst, a ≤ m := by
      intro t
      induction t with
      | nil => simp
      | cons q t ih' =>
        intro a h m hm
        simp only [wfFrom, Bool.and_eq_true, decide_eq_true_eq] at h
        simp only [List.map_cons, List.mem_cons] at hm
        rcases hm with rfl | hm
        · exact h.1.1
        · have := ih' h.2 m hm; omega
    simp only [List.map_cons, List.mem_cons] at hn
    rcases hn with rfl | hn
    · simp
    · have := hlow h.2 n hn
      rw [if_neg (by omega), if_neg (by omega)]
      simp [ih h.2 hn]

end Sys2Proof.Table
end

