-- ==== Sys2Proof/Laws/State.lean ====
section
/-!
SUPPORT. One lemma per field and update of the state.
-/

namespace Sys2Proof.Machine

variable (s : State) (n m : Nat) (v : Word) (r : EventReport)

@[simp] theorem setCtlr_cfg : (s.setCtlr n v).cfg = s.cfg := rfl
@[simp] theorem setCtlr_lastRead : (s.setCtlr n v).lastRead = s.lastRead := rfl
@[simp] theorem setCtlr_draws : (s.setCtlr n v).draws = s.draws := rfl
@[simp] theorem setCtlr_inputs : (s.setCtlr n v).inputs = s.inputs := rfl
@[simp] theorem setCtlr_outputs : (s.setCtlr n v).outputs = s.outputs := rfl
@[simp] theorem setCtlr_ctlr : (s.setCtlr n v).ctlr = Table.put s.ctlr n v := rfl
@[simp] theorem setCtlr_lastReadOf : (s.setCtlr n v).lastReadOf m = s.lastReadOf m := rfl
@[simp] theorem setCtlr_ctlrOf_same : (s.setCtlr n v).ctlrOf n = v := by simp [State.ctlrOf]

theorem setCtlr_ctlrOf_other {m n : Nat} (h : m ≠ n) : (s.setCtlr n v).ctlrOf m = s.ctlrOf m := by
  simp [State.ctlrOf, Table.get_put_other _ _ h]

@[simp] theorem afterDraw_cfg : s.afterDraw.cfg = s.cfg := rfl
@[simp] theorem afterDraw_ctlr : s.afterDraw.ctlr = s.ctlr := rfl
@[simp] theorem afterDraw_lastRead : s.afterDraw.lastRead = s.lastRead := rfl
@[simp] theorem afterDraw_draws : s.afterDraw.draws = s.draws + 1 := rfl
@[simp] theorem afterDraw_inputs : s.afterDraw.inputs = s.inputs := rfl
@[simp] theorem afterDraw_outputs : s.afterDraw.outputs = s.outputs := rfl
@[simp] theorem afterDraw_ctlrOf : s.afterDraw.ctlrOf n = s.ctlrOf n := rfl
@[simp] theorem afterDraw_lastReadOf : s.afterDraw.lastReadOf n = s.lastReadOf n := rfl

@[simp] theorem answerRead_cfg : (s.answerRead n v).cfg = s.cfg := rfl
@[simp] theorem answerRead_ctlr : (s.answerRead n v).ctlr = s.ctlr := rfl
@[simp] theorem answerRead_draws : (s.answerRead n v).draws = s.draws := rfl
@[simp] theorem answerRead_inputs : (s.answerRead n v).inputs = s.inputs := rfl
@[simp] theorem answerRead_outputs : (s.answerRead n v).outputs = .readData n v :: s.outputs := rfl
@[simp] theorem answerRead_lastRead : (s.answerRead n v).lastRead = Table.put s.lastRead n v := rfl
@[simp] theorem answerRead_ctlrOf : (s.answerRead n v).ctlrOf m = s.ctlrOf m := rfl
@[simp] theorem answerRead_lastReadOf_same : (s.answerRead n v).lastReadOf n = some v := by
  simp [State.lastReadOf]

theorem answerRead_lastReadOf_other {m n : Nat} (h : m ≠ n) :
    (s.answerRead n v).lastReadOf m = s.lastReadOf m := by
  simp [State.lastReadOf, Table.get_put_other _ _ h]

section Part

variable (p : Part)

@[simp] theorem answerPart_cfg : (s.answerPart p v).cfg = s.cfg := rfl
@[simp] theorem answerPart_ctlr : (s.answerPart p v).ctlr = s.ctlr := rfl
@[simp] theorem answerPart_draws : (s.answerPart p v).draws = s.draws := rfl
@[simp] theorem answerPart_inputs : (s.answerPart p v).inputs = s.inputs := rfl
@[simp] theorem answerPart_outputs : (s.answerPart p v).outputs =
    .partData p.n p.first (p.bytesOf s.cfg.byteOrder v) :: s.outputs := rfl
@[simp] theorem answerPart_lastRead : (s.answerPart p v).lastRead =
    Table.put s.lastRead p.n (mergeWord (p.mask s.cfg.byteOrder) ((s.lastReadOf p.n).getD 0) v) := rfl
@[simp] theorem answerPart_ctlrOf : (s.answerPart p v).ctlrOf m = s.ctlrOf m := rfl
@[simp] theorem answerPart_lastReadOf_same : (s.answerPart p v).lastReadOf p.n =
    some (mergeWord (p.mask s.cfg.byteOrder) ((s.lastReadOf p.n).getD 0) v) := by
  simp [State.lastReadOf]

theorem answerPart_lastReadOf_other {m : Nat} (h : m ≠ p.n) :
    (s.answerPart p v).lastReadOf m = s.lastReadOf m := by
  simp [State.lastReadOf, Table.get_put_other _ _ h]

end Part

@[simp] theorem emit_cfg : (s.emit r).cfg = s.cfg := rfl
@[simp] theorem emit_ctlr : (s.emit r).ctlr = s.ctlr := rfl
@[simp] theorem emit_lastRead : (s.emit r).lastRead = s.lastRead := rfl
@[simp] theorem emit_draws : (s.emit r).draws = s.draws := rfl
@[simp] theorem emit_inputs : (s.emit r).inputs = s.inputs := rfl
@[simp] theorem emit_outputs : (s.emit r).outputs = .event r :: s.outputs := rfl
@[simp] theorem emit_ctlrOf : (s.emit r).ctlrOf n = s.ctlrOf n := rfl
@[simp] theorem emit_lastReadOf : (s.emit r).lastReadOf n = s.lastReadOf n := rfl

@[simp] theorem coldReset_cfg : s.coldReset.cfg = s.cfg := rfl
@[simp] theorem coldReset_ctlr : s.coldReset.ctlr = s.cfg.resetRegisters s.draws := rfl
@[simp] theorem coldReset_lastRead : s.coldReset.lastRead = [] := rfl
@[simp] theorem coldReset_draws : s.coldReset.draws = s.draws + 1 := rfl
@[simp] theorem coldReset_inputs : s.coldReset.inputs = s.inputs := rfl
@[simp] theorem coldReset_outputs : s.coldReset.outputs = s.outputs := rfl
@[simp] theorem coldReset_lastReadOf : s.coldReset.lastReadOf n = none := rfl

/-- A state that differs from `s` in its inputs only. -/
@[simp] theorem withInputs_ctlrOf (is : List Input) : ({ s with inputs := is } : State).ctlrOf n = s.ctlrOf n := rfl
@[simp] theorem withInputs_lastReadOf (is : List Input) :
    ({ s with inputs := is } : State).lastReadOf n = s.lastReadOf n := rfl
@[simp] theorem withInputs_drawn (is : List Input) : ({ s with inputs := is } : State).drawn n = s.drawn n := rfl
@[simp] theorem withRegisters_drawn (regs : List (Nat × Word)) :
    ({ s with ctlr := regs } : State).drawn n = s.drawn n := rfl

end Sys2Proof.Machine
end

