-- ==== Sys2Proof/Laws/Access.lean ====
section
/-!
SUPPORT. What ERRCTLR.READ and ERRCTLR.WRITE answer, said once: one equation for each case, and one inversion for
exec.
-/

namespace Sys2Proof.Machine

variable {s t : State} {off : Offset} {v : Word} {n : Nat} {r : Record}

theorem present_false_iff {cfg : Config} {n : Nat} : cfg.present n = false ↔ cfg.presentRecord n = none := by
  simp [Config.present]

theorem execRead_present (ho : recordOf off = .ok n) (hp : s.cfg.presentRecord n = some r) :
    execRead off s = .next (s.afterDraw.answerRead n (readWord s.cfg.rasv2 r (s.ctlrOf n) (s.drawn n))) := by
  simp [execRead, ho, hp]

theorem execRead_absent (ho : recordOf off = .ok n) (hp : s.cfg.presentRecord n = none) :
    execRead off s = .next (s.answerRead n 0) := by
  simp [execRead, ho, hp]

theorem execWrite_present (ho : recordOf off = .ok n) (hp : s.cfg.presentRecord n = some r)
    (hw : WritePolicy (s.lastReadOf n) v) :
    execWrite off v s =
      .next (s.afterDraw.setCtlr n (writeWord s.cfg.rasv2 r (s.ctlrOf n) v (s.drawn n))) := by
  simp [execWrite, ho, hp, (sbzpAdmits_iff _ _).mpr hw]

theorem execWrite_refused (ho : recordOf off = .ok n) (hp : s.cfg.presentRecord n = some r)
    (hw : ¬ WritePolicy (s.lastReadOf n) v) : execWrite off v s = .refused .writePolicy := by
  simp [execWrite, ho, hp, (sbzpAdmits_iff _ _).not.mpr hw]

theorem execWrite_absent (ho : recordOf off = .ok n) (hp : s.cfg.presentRecord n = none) :
    execWrite off v s = .next s := by
  simp [execWrite, ho, hp]

/-- Everything a completed read does. -/
theorem execRead_next (h : execRead off s = .next t) : ∃ n, recordOf off = .ok n ∧
    ((s.cfg.presentRecord n = none ∧ t = s.answerRead n 0) ∨
     ∃ r, s.cfg.presentRecord n = some r ∧
       t = s.afterDraw.answerRead n (readWord s.cfg.rasv2 r (s.ctlrOf n) (s.drawn n))) := by
  cases ho : recordOf off with
  | error e => simp [execRead, ho] at h
  | ok n =>
    refine ⟨n, rfl, ?_⟩
    cases hp : s.cfg.presentRecord n with
    | none =>
      rw [execRead_absent ho hp] at h
      exact .inl ⟨rfl, by injection h with h; exact h.symm⟩
    | some r =>
      rw [execRead_present ho hp] at h
      exact .inr ⟨r, rfl, by injection h with h; exact h.symm⟩

/-- Everything a completed write does. -/
theorem execWrite_next (h : execWrite off v s = .next t) : ∃ n, recordOf off = .ok n ∧
    ((s.cfg.presentRecord n = none ∧ t = s) ∨
     ∃ r, s.cfg.presentRecord n = some r ∧ WritePolicy (s.lastReadOf n) v ∧
       t = s.afterDraw.setCtlr n (writeWord s.cfg.rasv2 r (s.ctlrOf n) v (s.drawn n))) := by
  cases ho : recordOf off with
  | error e => simp [execWrite, ho] at h
  | ok n =>
    refine ⟨n, rfl, ?_⟩
    cases hp : s.cfg.presentRecord n with
    | none =>
      rw [execWrite_absent ho hp] at h
      exact .inl ⟨rfl, by injection h with h; exact h.symm⟩
    | some r =>
      by_cases hw : WritePolicy (s.lastReadOf n) v
      · rw [execWrite_present ho hp hw] at h
        exact .inr ⟨r, rfl, hw, by injection h with h; exact h.symm⟩
      · rw [execWrite_refused ho hp hw] at h
        cases h

end Sys2Proof.Machine
end

