-- ==== Sys2Proof/Laws/Partial.lean ====
section
/-!
SUPPORT. Parts of a register: which bus accesses are one, and what a read and a write of a part answer, said once.
-/

namespace Sys2Proof

variable {off size n first : Nat} {p : Part}

/-- Byte `first` of the register of record `n` is the start of the part of `n` at `first`. -/
theorem partOf_offsetOf (hn : n ≤ 65534) (hf : first < 8) :
    partOf (offsetOf n + first) size = .ok { n := n, first := first, size := size } := by
  have hb : (BitVec.ofNat 22 (8 * ((offsetOf n + first) / 8))).toNat = 64 * n + 8 := by
    rw [BitVec.toNat_ofNat, offsetOf]; omega
  have hm : (offsetOf n + first) % 8 = first := by unfold offsetOf; omega
  rcases recordOf_cases (BitVec.ofNat 22 (8 * ((offsetOf n + first) / 8))) with ⟨a, e⟩ | ⟨a, b, e⟩ | ⟨a, b, e⟩
  · omega
  · omega
  · rw [partOf, e, hm, hb, show (64 * n + 8) / 64 = n by omega]

/-- Every part of a register is at its record's offset. -/
theorem partOf_ok (ho : off < 2 ^ 22) (h : partOf off size = .ok p) :
    p.n ≤ 65534 ∧ p.first < 8 ∧ p.size = size ∧ off = offsetOf p.n + p.first := by
  have hb : (BitVec.ofNat 22 (8 * (off / 8))).toNat = 8 * (off / 8) := by
    rw [BitVec.toNat_ofNat]; omega
  unfold partOf at h
  rcases recordOf_cases (BitVec.ofNat 22 (8 * (off / 8))) with ⟨a, e⟩ | ⟨a, b, e⟩ | ⟨a, b, e⟩
  · simp [e] at h
  · simp [e] at h
  · rw [hb] at a b e
    rw [e] at h
    cases h
    refine ⟨b, Nat.mod_lt _ (by omega), rfl, ?_⟩
    show off = offsetOf (8 * (off / 8) / 64) + off % 8
    unfold offsetOf
    omega

theorem fits_iff : p.fits = true ↔ p.size ≠ 0 ∧ p.first % p.size = 0 ∧ p.first + p.size ≤ 8 := by
  simp [Part.fits, and_assoc]

/-- The write policy for a part is about the bits of the part. -/
theorem writePolicy_getD (last : Option Word) (v : Word) :
    Machine.WritePolicy last v ↔ Machine.WritePolicy (some (last.getD 0)) v := by
  cases last with
  | some l => rfl
  | none =>
    refine forall_congr' fun i => imp_congr_right fun _ => ⟨fun h => ?_, fun h => ?_⟩
    · rcases h with h | ⟨l, h, -⟩
      · exact .inl h
      · cases h
    · rcases h with h | ⟨l, h, he⟩
      · exact .inl h
      · cases h
        exact .inl (by simpa using he)

end Sys2Proof

namespace Sys2Proof.Machine

variable {s t : State} {b : BusAccess} {p : Part} {bs : List Byte} {r : Record} {rest : List Input}

/-- Everything a bus access of an admitted size can be. -/
theorem busToPart_ok {cfg : Config} (h : busToPart cfg b = .ok p) :
    b.size ≠ 8 ∧ b.size ∈ cfg.accessSizes ∧ p.n ≤ 65534 ∧ p.size = b.size ∧ p.fits = true ∧
      b.addr = cfg.rasBase + offsetOf p.n + p.first := by
  unfold busToPart busOffset at h
  split at h
  · cases h
  next hs =>
  split at h
  · cases h
  next off ho =>
  split at ho
  · cases ho
  next ha =>
  cases ho
  split at h
  · cases h
  next q hq =>
  obtain ⟨hn, -, hsz, hoff⟩ := partOf_ok (by omega) hq
  split at h
  · next hf =>
    cases h
    exact ⟨fun e => hs (.inl e), not_not.mp fun e => hs (.inr e), hn, hsz, hf, by omega⟩
  · cases h

/-- A bus access of an admitted size at a part that fits is that part. -/
theorem busToPart_at {cfg : Config} (hs : p.size ∈ cfg.accessSizes) (h8 : p.size ≠ 8) (hb : b.size = p.size)
    (ha : b.addr = cfg.rasBase + offsetOf p.n + p.first) (hf : p.fits = true) (hn : p.n ≤ 65534) :
    busToPart cfg b = .ok p := by
  have hf' := fits_iff.mp hf
  have ho : busOffset cfg b = .ok (offsetOf p.n + p.first) := by
    rw [busOffset, if_neg (by unfold offsetOf at ha; omega), ha]
    congr 1
    omega
  simp only [busToPart, hb, ho, partOf_offsetOf hn (show p.first < 8 by omega)]
  rw [if_neg (by simp [h8, hs]), if_pos hf]

/-- Everything a completed read of a part does. -/
theorem readPart_next (h : readPart p s = .next t) :
    (s.cfg.presentRecord p.n = none ∧ t = s.answerPart p 0) ∨
    ∃ r, s.cfg.presentRecord p.n = some r ∧
      t = s.afterDraw.answerPart p (readWord s.cfg.rasv2 r (s.ctlrOf p.n) (s.drawn p.n)) := by
  unfold readPart at h
  split at h
  · next hp => exact .inl ⟨hp, by injection h with h; exact h.symm⟩
  · next r hp => exact .inr ⟨r, hp, by injection h with h; exact h.symm⟩

/-- Everything a completed write of a part does. -/
theorem writePart_next (h : writePart p bs s = .next t) :
    (s.cfg.presentRecord p.n = none ∧ t = s) ∨
    ∃ r, s.cfg.presentRecord p.n = some r ∧ WritePolicy (s.lastReadOf p.n) (p.wordOf s.cfg.byteOrder bs) ∧
      t = s.afterDraw.setCtlr p.n (mergeWord (p.mask s.cfg.byteOrder) (s.ctlrOf p.n)
        (writeWord s.cfg.rasv2 r (s.ctlrOf p.n) (p.wordOf s.cfg.byteOrder bs) (s.drawn p.n))) := by
  unfold writePart at h
  split at h
  · next hp => exact .inl ⟨hp, by injection h with h; exact h.symm⟩
  · next r hp =>
    split at h
    · next hw => exact .inr ⟨r, hp, (sbzpAdmits_iff _ _).mp hw, by injection h with h; exact h.symm⟩
    · cases h

theorem readPart_absent (hp : s.cfg.presentRecord p.n = none) : readPart p s = .next (s.answerPart p 0) := by
  simp [readPart, hp]

theorem readPart_present (hp : s.cfg.presentRecord p.n = some r) : readPart p s =
    .next (s.afterDraw.answerPart p (readWord s.cfg.rasv2 r (s.ctlrOf p.n) (s.drawn p.n))) := by
  simp [readPart, hp]

theorem writePart_absent (hp : s.cfg.presentRecord p.n = none) : writePart p bs s = .next s := by
  simp [writePart, hp]

theorem writePart_present (hp : s.cfg.presentRecord p.n = some r)
    (hw : WritePolicy (s.lastReadOf p.n) (p.wordOf s.cfg.byteOrder bs)) : writePart p bs s =
      .next (s.afterDraw.setCtlr p.n (mergeWord (p.mask s.cfg.byteOrder) (s.ctlrOf p.n)
        (writeWord s.cfg.rasv2 r (s.ctlrOf p.n) (p.wordOf s.cfg.byteOrder bs) (s.drawn p.n)))) := by
  simp [writePart, hp, (sbzpAdmits_iff _ _).mpr hw]

theorem writePart_refused (hp : s.cfg.presentRecord p.n = some r)
    (hw : ¬ WritePolicy (s.lastReadOf p.n) (p.wordOf s.cfg.byteOrder bs)) :
    writePart p bs s = .refused .writePolicy := by
  simp [writePart, hp, (sbzpAdmits_iff _ _).not.mpr hw]

/-- An access to a part changes no other record. -/
theorem takePart_other {m : Nat} (h : takePart p b s = .next t) (hm : m ≠ p.n) :
    t.ctlrOf m = s.ctlrOf m ∧ t.lastReadOf m = s.lastReadOf m := by
  cases b with
  | read a k =>
    rcases readPart_next h with ⟨-, rfl⟩ | ⟨r, -, rfl⟩
    · exact ⟨rfl, answerPart_lastReadOf_other _ _ _ hm⟩
    · exact ⟨rfl, answerPart_lastReadOf_other _ _ _ hm⟩
  | write a bs =>
    rcases writePart_next h with ⟨-, rfl⟩ | ⟨r, -, -, rfl⟩
    · exact ⟨rfl, rfl⟩
    · exact ⟨setCtlr_ctlrOf_other _ _ hm, rfl⟩

/-- What an access to a part leaves alone. -/
theorem takePart_frame (h : takePart p b s = .next t) :
    t.cfg = s.cfg ∧ t.inputs = s.inputs ∧ s.draws ≤ t.draws ∧
      (t.outputs = s.outputs ∨ ∃ bs, t.outputs = .partData p.n p.first bs :: s.outputs) := by
  cases b with
  | read a k => rcases readPart_next h with ⟨-, rfl⟩ | ⟨r, -, rfl⟩ <;> simp
  | write a bs => rcases writePart_next h with ⟨-, rfl⟩ | ⟨r, -, -, rfl⟩ <;> simp

end Sys2Proof.Machine
end

