-- ==== Sys2Proof/Laws/PerInstr.lean ====
section
/-!
SUPPORT. A statement about every operation as syntax, one lemma per constructor.
-/

namespace Sys2Proof.Laws.EncodingShape

/-- The encoding of an operation is the eleven bytes of an access triple that carries its offset, and the decoder
reads it as that operation or not at all. -/
def Statement (i : Instr) : Prop :=
  (∃ dir data, encode i = accessBytes dir i.offset data) ∧ (encode i).length = 11 ∧
  ∀ j, decode (encode i) = .ok j → j = i

theorem read (off : Offset) : Statement (.read off) := by
  refine ⟨⟨.read, 0, rfl⟩, by simp, fun j hj => ?_⟩
  simp only [encode, decode_accessBytes, decodeAccess] at hj
  split at hj
  · cases hj
  · cases hj; rfl

theorem write (off : Offset) (v : Word) : Statement (.write off v) := by
  refine ⟨⟨.write, v, rfl⟩, by simp, fun j hj => ?_⟩
  simp only [encode, decode_accessBytes, decodeAccess] at hj
  split at hj
  · cases hj
  · cases hj; rfl

end Sys2Proof.Laws.EncodingShape
end

