-- ==== Sys2Proof/Laws/Step.lean ====
section
/-!
SUPPORT. What an error event and a step answer, said once.
-/

namespace Sys2Proof.Machine

variable {s t : State} {ev : ErrorEvent} {n : Nat} {r : Record} {rest : List Input}

theorem nodeOf_some {cfg : Config} {m n : Nat} {r : Record} :
    nodeOf cfg m = some (n, r) ↔ cfg.nodeFirst m = some n ∧ cfg.presentRecord n = some r := by
  simp only [nodeOf, Option.bind_eq_some_iff, Option.map_eq_some_iff, Prod.mk.injEq]
  constructor
  · rintro ⟨a, ha, b, hb, rfl, rfl⟩
    exact ⟨ha, hb⟩
  · rintro ⟨ha, hb⟩
    exact ⟨n, ha, r, hb, rfl, rfl⟩

/-- Everything a completed event does. -/
theorem takeEvent_next (h : takeEvent ev s = .next t) : ∃ n r, s.cfg.nodeFirst ev.m = some n ∧
    s.cfg.presentRecord n = some r ∧
    t = s.afterDraw.emit (eventReport s.cfg n r (s.ctlrOf n) ev (s.drawn n)) := by
  unfold takeEvent at h
  split at h
  · cases h
  · next hn =>
    injection h with h
    exact ⟨_, _, (nodeOf_some.mp hn).1, (nodeOf_some.mp hn).2, h.symm⟩

/-- The step of an event. -/
theorem step_event (h : EventAt s ev n r rest) : step s =
    .next (({ s with inputs := rest } : State).afterDraw.emit
      (eventReport s.cfg n r (s.ctlrOf n) ev (s.drawn n))) := by
  simp [step, takeNext, h.cfgWf, h.next, takeInput, takeEvent, nodeOf_some.mpr ⟨h.node, h.present⟩]

/-- The one report an event gives. -/
theorem reports_event (h : EventAt s ev n r rest) :
    Reports s (eventReport s.cfg n r (s.ctlrOf n) ev (s.drawn n)) :=
  ⟨_, step_event h, rfl⟩

/-- The configuration under which a step completes is well formed. -/
theorem cfgWf_of_step (h : step s = .next t) : s.cfg.wf = true := by
  cases hw : s.cfg.wf with
  | true => rfl
  | false => simp [step, takeNext, hw] at h

/-- A step takes the next input, if there is one. -/
theorem step_next (h : step s = .next t) :
    (s.inputs = [] ∧ t = s) ∨
    ∃ i rest, s.inputs = i :: rest ∧ takeInput i { s with inputs := rest } = .next t := by
  have hw := cfgWf_of_step h
  simp only [step, takeNext, hw, Bool.true_eq_false, if_false] at h
  split at h
  · next he => exact .inl ⟨he, by injection h with h; exact h.symm⟩
  · next he => exact .inr ⟨_, _, he, h⟩

/-- An access that completes is a decoded instruction that completes. -/
theorem runAccess_next {bytes : List Byte} (h : runAccess bytes s = .next t) :
    ∃ i, decode bytes = .ok i ∧ exec i s = .next t := by
  unfold runAccess at h
  split at h
  · cases h
  · next hd => exact ⟨_, hd, h⟩

/-- Everything a completed input is. -/
theorem takeInput_next {i : Input} (h : takeInput i s = .next t) :
    (∃ bytes ins, (i = .access bytes ∨ ∃ b, i = .bus b ∧ busToAccess s.cfg b = .ok bytes) ∧
      decode bytes = .ok ins ∧ exec ins s = .next t) ∨
    (∃ b p, i = .bus b ∧ busToPart s.cfg b = .ok p ∧ takePart p b s = .next t) ∨
    (∃ ev, i = .event ev ∧ takeEvent ev s = .next t) ∨
    (i = .reset ∧ t = s.coldReset) ∨ (i = .preservingReset ∧ t = s) := by
  cases i with
  | access bytes =>
    obtain ⟨ins, hd, he⟩ := runAccess_next h
    exact .inl ⟨bytes, ins, .inl rfl, hd, he⟩
  | bus b =>
    simp only [takeInput, takeBus] at h
    split at h
    · split at h
      · cases h
      · next hb =>
        obtain ⟨ins, hd, he⟩ := runAccess_next h
        exact .inl ⟨_, ins, .inr ⟨b, rfl, hb⟩, hd, he⟩
    · split at h
      · cases h
      · next hb => exact .inr (.inl ⟨b, _, rfl, hb, h⟩)
  | event ev => exact .inr (.inr (.inl ⟨ev, rfl, h⟩))
  | reset => exact .inr (.inr (.inr (.inl ⟨rfl, by injection h with h; exact h.symm⟩)))
  | preservingReset => exact .inr (.inr (.inr (.inr ⟨rfl, by injection h with h; exact h.symm⟩)))

/-- The step of an access to a part of a present register. -/
theorem step_part {b : BusAccess} {p : Part} (h : PartAccessAt s b p r rest) :
    step s = takePart p b { s with inputs := rest } := by
  have hn := presentRecord_le h.cfgWf h.present
  have hp := busToPart_at h.admitted.1 h.admitted.2 h.size h.addr h.fits hn
  simp [step, takeNext, h.cfgWf, h.next, takeInput, takeBus, h.size, h.admitted.2, hp]

end Sys2Proof.Machine
end

