-- ==== Sys2Proof/Tests/Slice0.lean ====
section
/-!
SUPPORT. Small tests with expected results from 95_test_vectors.md (cited by vector), and a witness for the hypotheses
of each statement.
-/

namespace Sys2Proof.Tests

open Sys2Proof.Machine

-- Fixtures -------------------------------------------------------------------------------------------------

def noFixed : FixedEnables := ⟨false, false, false, false, false, false, false⟩

def record (n : Nat) (fr : FR) : Record where
  n := n
  implemented := true
  firstInNode := true
  nodeFirst := some n
  fr := fr
  hasCECounter := false
  coldResetED := false
  coldResetOther := 0
  res0Stored := 0
  fullyDisables := false
  deferredAborts := false
  fixedEnable := noFixed

def config (v2 : Bool) (records : List Record) : Config where
  rasv2 := v2
  records := records
  fhiBase := ⟨true, true, true⟩
  uncontainedOpen := false
  rasBase := 0x1000
  accessSizes := []
  byteOrder := .little

/-- The ERR<n>FR values of the configurations K0, K1, K2 (K3) and K4 of 95_test_vectors.md. -/
def frK0 : FR := ⟨0, 0, 0, 0, 0, 0, 0, 0, 0, 0⟩
def frK1 : FR := ⟨2, 2, 2, 2, 2, 2, 2, 2, 2, 1⟩
def frK2 : FR := ⟨2, 3, 3, 3, 3, 3, 2, 3, 1, 1⟩
def frK4 : FR := ⟨2, 2, 2, 2, 2, 2, 2, 2, 0, 1⟩

def cfgK1 : Config := config true [record 0 frK1]
def cfgK2 : Config := config true [record 0 frK2]
def cfgK3 : Config := config false [record 0 frK2]

/-- K1 on an interface that takes accesses of 1 and 4 bytes besides those of 8. -/
def cfgParts : Config := { cfgK1 with accessSizes := [1, 4] }

/-- Node A = records 0 and 1, node B = record 2 (program P3). -/
def cfgP3 : Config :=
  config true [record 0 frK1, { record 1 frK1 with firstInNode := false, nodeFirst := some 0 }, record 2 frK1]

def stateOf (cfg : Config) (c : Word) : State where
  cfg := cfg
  ctlr := [(0, c)]
  lastRead := []
  draws := 0
  inputs := []
  outputs := []

def errorEvent (m : Nat) (cls : RecordedAs) (dir : Dir) : ErrorEvent where
  m := m
  dir := dir
  recordedAs := cls
  counterEvent := false
  critical := false
  notCorrectedNotDeferred := false
  deferredNotToRequester := false
  higherPriorityHeld := false

/-- The signals of an event under a register value. -/
def sig (cfg : Config) (r : Record) (c : Word) (ev : ErrorEvent) : Signals := signals cfg r c ev 0

-- Well-formedness ------------------------------------------------------------------------------------------

theorem test_wf_accepts : (Instr.read 0x000008).wf = true ∧ (Instr.write 0x3FFF88 5).wf = true := by decide
/-- The check of the low six bits refuses. -/
theorem test_wf_low_bits : (Instr.read 0x000010).wf = false ∧ (Instr.write 0x000009 5).wf = false := by decide
/-- The check of the index refuses. -/
theorem test_wf_index : (Instr.read 0x3FFFC8).wf = false ∧ (Instr.write 0x3FFFC8 5).wf = false := by decide

/-- B2, last row: DFI = 0b11 with FI = 0b10 is refused; K1, K2 and P3 are well formed. -/
theorem test_config_wf : (config true [record 0 { frK2 with fi := 2 }]).wf = false ∧
    cfgK1.wf = true ∧ cfgK2.wf = true ∧ cfgK3.wf = true ∧ cfgP3.wf = true := by decide
/-- R8 item 1, item 2, and the base address. -/
theorem test_config_refused :
    (config true [{ record 0 frK1 with implemented := false, nodeFirst := none }]).wf = false ∧
    (config true [{ record 1 frK1 with firstInNode := false, nodeFirst := some 0 }]).wf = false ∧
    (config true [record 65535 frK1]).wf = false ∧
    ({ cfgK1 with rasBase := 4 } : Config).wf = false := by decide

-- Decoding -------------------------------------------------------------------------------------------------

/-- B1: dir 0, off 0x003FC8 = record 255; the datum of a read is not looked at. -/
theorem test_decode_read :
    decode [0xC8, 0x3F, 0x00, 1, 2, 3, 4, 5, 6, 7, 8] = .ok (.read 0x003FC8) ∧ recordOf 0x003FC8 = .ok 255 :=
  ⟨rfl, rfl⟩
/-- P2 step 2: (1, 0x000008, 0x8009). -/
theorem test_decode_write :
    decode [0x08, 0x00, 0x40, 0x09, 0x80, 0, 0, 0, 0, 0, 0] = .ok (.write 0x000008 0x8009) := rfl
/-- B1: the refused offsets. -/
theorem test_decode_refuses :
    decode [0x0C, 0, 0, 0, 0, 0, 0, 0, 0, 0, 0] = .error .undefinedOffset ∧
    decode [0x09, 0, 0, 0, 0, 0, 0, 0, 0, 0, 0] = .error .undefinedOffset ∧
    decode [0xC8, 0xFF, 0x3F, 0, 0, 0, 0, 0, 0, 0, 0] = .error .indexOutOfRange ∧
    decode [0x08, 0, 0x80, 0, 0, 0, 0, 0, 0, 0, 0] = .error .reservedBit ∧
    decode [0x08, 0, 0] = .error .wrongLength := ⟨rfl, rfl, rfl, rfl, rfl⟩
theorem test_table_word : decodeTableWord 8 0x08 = some (.read 0x000008) ∧
    decodeTableWord 24 0x400048 = some (.write 0x000048 0) ∧ decodeTableWord 8 0x10 = none := by decide
/-- The next step runs the access that is placed, as the first after reset. -/
theorem test_first_step_read : ∃ t, step (State.reset.withFetchWord 8 0x08) = .next t := ⟨_, rfl⟩
theorem test_first_step_write : ∃ t, step (State.reset.withFetchWord 24 0x400008) = .next t := ⟨_, rfl⟩

-- Layout (B2) ----------------------------------------------------------------------------------------------

/-- The control masks of the five configurations. -/
def controlMask (v2 : Bool) (fr : FR) : List Nat :=
  (List.range 64).filter (fun i => kindPresent v2 fr i != .res0 && kindPresent v2 fr i != .impdef)

theorem test_control_masks : controlMask true frK0 = [] ∧ controlMask true frK1 = [0, 2, 3, 4, 8, 10, 12, 13, 14] ∧
    controlMask true frK2 = [0, 2, 3, 4, 5, 6, 7, 8, 9, 10, 11, 12, 13, 14, 15] ∧
    controlMask false frK2 = [0, 2, 3, 4, 5, 6, 7, 8, 9, 10, 11, 13] ∧
    controlMask true frK4 = [0, 2, 3, 4, 8, 10, 13, 14] := by decide +kernel
theorem test_names : cfgK1.kind 0 14 = .ctrl .dfi ∧ cfgK2.kind 0 14 = .ctrl .rdfi ∧ cfgK2.kind 0 15 = .ctrl .wdfi ∧
    cfgK3.kind 0 11 = .ctrl .wdui ∧ cfgK1.kind 0 1 = .impdef ∧ cfgK1.kind 0 32 = .impdef ∧
    cfgP3.kind 1 0 = .res0 ∧ cfgP3.kind 7 1 = .res0 := by decide
/-- Field masks of R87. -/
theorem test_masks : Ctrl.mask .wdfi = 0x8000 ∧ Ctrl.mask .ced = 0x1000 ∧ Ctrl.mask .ed = 1 := by decide

-- ERRCTLR.READ and ERRCTLR.WRITE (B3) ----------------------------------------------------------------------

/-- B3 rows 2 and 6: the read of 0x751D with Hardwired RES0 bits and of 0xFFFD with Stored ones, with bits [31:0] but
bit 1 looked at, whatever is drawn (two draws). -/
theorem test_read_word :
    readWord true (record 0 frK1) 0x751D (-1) &&& 0xFFFFFFFD = 0x751D ∧
    readWord true (record 0 frK1) 0xFFFF751F 0 = 0x751D ∧
    readWord true { record 0 frK1 with res0Stored := 0x8AE0 } 0xFFFD 0 = 0xFFFD := by decide +kernel
/-- B3 rows 5, 6 and 7: the controls after the write. -/
theorem test_write_word :
    writeWord true (record 0 frK1) 0 0xFFFD 0 = 0x751D ∧
    writeWord true { record 0 frK1 with res0Stored := 0x8AE0 } 0 0xFFFD 0 = 0xFFFD ∧
    writeWord true (record 0 frK1) 0x751D 0xFFFF0000 0 = 0 := by decide +kernel
/-- B3 rows 8 and 11: refused. -/
theorem test_write_refused : exec (.write 0x000008 0x2) (stateOf cfgK1 0) = .refused .writePolicy ∧
    exec (.write 0x000008 0xFFFFFFFFFFFFFFFF) (stateOf cfgK1 0) = .refused .writePolicy := ⟨rfl, rfl⟩
/-- B3 rows 9 and 10: preserved, and zero. -/
theorem test_write_preserved : sbzpAdmits (some 0x2) 0x2 = true ∧ sbzpAdmits (some 0x2) 0x0 = true ∧
    sbzpAdmits (some 0x2) 0x100000000 = false := by decide +kernel
/-- B3 rows 14 to 16: the absent registers. -/
theorem test_absent : exec (.write 0x000048 0x751D) (stateOf cfgP3 5) = .next (stateOf cfgP3 5) ∧
    exec (.read 0x0001C8) (stateOf cfgP3 5) = .next ((stateOf cfgP3 5).answerRead 7 0) := ⟨rfl, rfl⟩
/-- B3 rows 12 and 13: bit 0 after a reset. -/
theorem test_reset_ed : (resetWord true (record 0 frK1) (-1)).getLsbD 0 = false ∧
    (resetWord true { record 0 frK1 with coldResetED := true, coldResetOther := 0x4 } (-1)) &&& 0xFFFD = 0x5 := by
  decide +kernel

-- Signals (B4) ---------------------------------------------------------------------------------------------

def k1 (c : Word) (ev : ErrorEvent) : Signals := sig cfgK1 (record 0 frK1) c ev
def k2 (c : Word) (ev : ErrorEvent) : Signals := sig cfgK2 (record 0 frK2) c ev

/-- Vectors 2, 4, 5, 21. -/
theorem test_uncorrected :
    k1 0x0005 (errorEvent 0 .uncorrected .read) = ⟨true, false, false, false⟩ ∧
    k1 0x001D { errorEvent 0 .uncorrected .read with notCorrectedNotDeferred := true } = ⟨true, true, false, true⟩ ∧
    k1 0x001C { errorEvent 0 .uncorrected .read with notCorrectedNotDeferred := true } = Signals.none ∧
    k1 0x0011 { errorEvent 0 .uncorrected .write with notCorrectedNotDeferred := true } =
      ⟨false, false, false, true⟩ := by decide
/-- Vectors 7 to 12: the xor of DFI and FI, and DUI. -/
theorem test_deferred :
    k1 0x0009 (errorEvent 0 .deferred .read) = ⟨false, true, false, false⟩ ∧
    k1 0x4009 (errorEvent 0 .deferred .read) = Signals.none ∧
    k1 0x4001 (errorEvent 0 .deferred .write) = ⟨false, true, false, false⟩ ∧
    k1 0x0001 (errorEvent 0 .deferred .read) = Signals.none ∧
    k1 0x0401 (errorEvent 0 .deferred .read) = ⟨true, false, false, false⟩ ∧
    k1 0x4401 (errorEvent 0 .deferred .write) = ⟨true, true, false, false⟩ := by decide
/-- Vectors 13 to 17 and 22: corrected error events. -/
theorem test_corrected :
    k1 0x0101 (errorEvent 0 .corrected .read) = ⟨false, true, false, false⟩ ∧
    k1 0x0009 (errorEvent 0 .corrected .read) = Signals.none ∧
    sig cfgK1 { record 0 frK1 with hasCECounter := true } 0x0101 (errorEvent 0 .corrected .read) = Signals.none ∧
    sig cfgK1 { record 0 frK1 with hasCECounter := true } 0x0101
      { errorEvent 0 .corrected .read with counterEvent := true } = ⟨false, true, false, false⟩ ∧
    sig cfgK1 { record 0 frK1 with hasCECounter := true } 0x1101 (errorEvent 0 .corrected .read) =
      ⟨false, true, false, false⟩ ∧
    k1 0x0405 (errorEvent 0 .corrected .read) = Signals.none := by decide
/-- Vectors 18 to 20: the critical error interrupt, and an error deferred but not to the Requester. -/
theorem test_critical_and_deferred_aborts :
    k1 0x2001 { errorEvent 0 .unrecorded .read with critical := true } = ⟨false, false, true, false⟩ ∧
    (k1 0x0001 { errorEvent 0 .unrecorded .read with critical := true }).cri = false ∧
    k1 0x0011 { errorEvent 0 .deferred .read with deferredNotToRequester := true } = Signals.none ∧
    sig cfgK1 { record 0 frK1 with deferredAborts := true } 0x0011
      { errorEvent 0 .deferred .read with deferredNotToRequester := true } = ⟨false, false, false, true⟩ := by decide
/-- Vectors 24 to 27, 30, 31, 33 to 38: the split controls. -/
theorem test_split :
    k2 0x0009 (errorEvent 0 .deferred .write) = Signals.none ∧
    k2 0x8001 (errorEvent 0 .deferred .write) = ⟨false, true, false, false⟩ ∧
    k2 0x8001 (errorEvent 0 .deferred .read) = Signals.none ∧
    k2 0x8041 (errorEvent 0 .deferred .write) = Signals.none ∧
    k2 0x0021 (errorEvent 0 .uncorrected .write) = ⟨true, false, false, false⟩ ∧
    k2 0x0021 (errorEvent 0 .uncorrected .read) = Signals.none ∧
    k2 0x0081 { errorEvent 0 .uncorrected .read with notCorrectedNotDeferred := true } = Signals.none ∧
    k2 0x0011 { errorEvent 0 .uncorrected .read with notCorrectedNotDeferred := true } = ⟨false, false, false, true⟩ ∧
    k2 0x0201 (errorEvent 0 .corrected .write) = ⟨false, true, false, false⟩ ∧
    k2 0x0201 (errorEvent 0 .corrected .read) = Signals.none ∧
    k2 0x0801 (errorEvent 0 .deferred .write) = ⟨true, false, false, false⟩ ∧
    k2 0x0801 (errorEvent 0 .deferred .read) = Signals.none := by decide
/-- Vector 42, K3: bit 15 is RES0 and changes nothing. -/
theorem test_no_v2 :
    sig cfgK3 (record 0 frK2) 0x0041 (errorEvent 0 .deferred .write) = ⟨false, true, false, false⟩ ∧
    sig cfgK3 (record 0 frK2) 0x8041 (errorEvent 0 .deferred .write) = ⟨false, true, false, false⟩ := by decide
/-- P3 steps 5 and 8: record 1 is governed by register 0, and an undefined offset on the bus is refused. -/
theorem test_node_and_bus : nodeOf cfgP3 1 = some (0, record 0 frK1) ∧
    step { stateOf cfgP3 5 with inputs := [.bus (.read 0x1010 8)] } = .refused (.undecoded .undefinedOffset) ∧
    step { stateOf cfgP3 5 with inputs := [.bus (.read 0x1008 4)] } = .refused .accessSizeNotAdmitted :=
  ⟨by decide, rfl, rfl⟩

-- Parts of a register --------------------------------------------------------------------------------------

/-- By hand from R67: bits 15:8 are byte 1 of the register in little-endian order and byte 6 in big-endian order; 0x01
there, over 0x751D, is 0x011D. -/
theorem test_part_write :
    mergeWord (Part.mask ⟨0, 1, 1⟩ .little) 0x751D
      (writeWord true (record 0 frK1) 0x751D (Part.wordOf ⟨0, 1, 1⟩ .little [0x01]) 0) = 0x011D ∧
    mergeWord (Part.mask ⟨0, 6, 1⟩ .big) 0x751D
      (writeWord true (record 0 frK1) 0x751D (Part.wordOf ⟨0, 6, 1⟩ .big [0x01]) 0) = 0x011D := by decide +kernel
/-- By hand from R67: the low half of 0x0123456789ABCDEF. -/
theorem test_part_read : Part.bytesOf ⟨0, 0, 4⟩ .little 0x0123456789ABCDEF = [0xEF, 0xCD, 0xAB, 0x89] ∧
    Part.bytesOf ⟨0, 4, 4⟩ .big 0x0123456789ABCDEF = [0x89, 0xAB, 0xCD, 0xEF] := by decide +kernel
/-- R64, R65, R66: an admitted size across the middle of a register, and outside one; a size that is not admitted; and
R45: a 1 in bit 32 that no read returned. -/
theorem test_part_refused :
    step { stateOf cfgParts 0 with inputs := [.bus (.read 0x100A 4)] } = .refused .accessNotWithinRegister ∧
    step { stateOf cfgParts 0 with inputs := [.bus (.read 0x1010 4)] } = .refused (.undecoded .undefinedOffset) ∧
    step { stateOf cfgParts 0 with inputs := [.bus (.read 0x1008 2)] } = .refused .accessSizeNotAdmitted ∧
    step { stateOf cfgParts 0 with inputs := [.bus (.write 0x100C [1, 0, 0, 0])] } = .refused .writePolicy :=
  ⟨rfl, rfl, rfl, rfl⟩

-- Witnesses ------------------------------------------------------------------------------------------------

theorem present_one {v2 : Bool} {fr : FR} {n : Nat} {r : Record}
    (h : (config v2 [record 0 fr]).presentRecord n = some r) : n = 0 ∧ r = record 0 fr := by
  obtain ⟨rfl, hr⟩ := find_some (presentRecord_some.mp h).1
  have : r = record 0 fr := List.mem_singleton.mp hr
  subst this
  exact ⟨rfl, rfl⟩

theorem present_K1 : cfgK1.presentRecord 0 = some (record 0 frK1) := by decide

theorem eventAt_K1 (c : Word) (cls : RecordedAs) (dir : Dir) :
    EventAt { stateOf cfgK1 c with inputs := [.event (errorEvent 0 cls dir)] } (errorEvent 0 cls dir) 0
      (record 0 frK1) [] :=
  ⟨show cfgK1.wf = true by decide, rfl, show cfgK1.nodeFirst 0 = some 0 by decide, present_K1⟩

theorem eventAt_K2 (c : Word) (cls : RecordedAs) (dir : Dir) :
    EventAt { stateOf cfgK2 c with inputs := [.event (errorEvent 0 cls dir)] } (errorEvent 0 cls dir) 0
      (record 0 frK2) [] :=
  ⟨show cfgK2.wf = true by decide, rfl, show cfgK2.nodeFirst 0 = some 0 by decide,
    show cfgK2.presentRecord 0 = some (record 0 frK2) by decide⟩

theorem eventAt_noDfi (cls : RecordedAs) :
    EventAt { stateOf (config false [record 0 frK0]) 1 with inputs := [.event (errorEvent 0 cls .read)] }
      (errorEvent 0 cls .read) 0 (record 0 frK0) [] :=
  ⟨show (config false [record 0 frK0]).wf = true by decide, rfl,
    show (config false [record 0 frK0]).nodeFirst 0 = some 0 by decide,
    show (config false [record 0 frK0]).presentRecord 0 = some (record 0 frK0) by decide⟩

/-- Two inputs that leave register 0 alone: an event of its node and a write to another record; then a reset. -/
def quietInputs : List Input :=
  [.event (errorEvent 1 .uncorrected .read), .access (encode (.write 0x48 1)), .reset]

theorem quietInputs_leave : ∀ i ∈ quietInputs.take 2, LeavesRegister cfgP3 0 i := by
  intro i hi
  simp only [quietInputs, List.take_succ_cons, List.take_zero, List.mem_cons, List.not_mem_nil, or_false] at hi
  rcases hi with rfl | rfl
  · refine ⟨by simp, fun bytes off v h => ?_, fun b p h => by cases h⟩
    rcases h with h | ⟨b, h, -⟩ <;> cases h
  · refine ⟨by simp, fun bytes off v h hd => ?_, fun b p h => by cases h⟩
    rcases h with h | ⟨b, h, -⟩
    · cases h
      have he : decode (encode (.write 0x48 1)) = .ok (.write 0x48 1) := rfl
      rw [he] at hd
      cases hd
      decide
    · cases h

theorem witness_DecodeOfEncodeIsIdentity : (Instr.write 0x3FFF88 (-1)).wf = true ∧ (Instr.read 0x8).wf = true := by
  decide
theorem witness_DecodedAccessEncodesBack :
    decode (encode (.write 0x8 5)) = .ok (.write 0x8 5) ∧ decode (encode (.read 0x3FFF88)) = .ok (.read 0x3FFF88) :=
  ⟨rfl, rfl⟩
theorem witness_RecordOffsetSelectsRecord : recordOf (BitVec.ofNat 22 (offsetOf 0)) = .ok 0 ∧
    recordOf (BitVec.ofNat 22 (offsetOf 65534)) = .ok 65534 := ⟨rfl, rfl⟩
theorem witness_UndefinedOffsetIsRefused : (0x3FFFC0 : Offset).toNat % 64 ≠ 8 ∧
    (0x3FFFC8 : Offset).toNat = 64 * 65535 + 8 := by decide
theorem witness_StepRunsDecodedAccess : cfgK1.wf = true ∧
    ({ stateOf cfgK1 0 with inputs := [.access (encode (.read 0x8))] } : State).inputs =
      .access (encode (.read 0x8)) :: [] ∧ decode (encode (.read 0x8)) = .ok (.read 0x8) := ⟨by decide, rfl, rfl⟩
theorem witness_BusAccessIsInterfaceAccess :
    ({ stateOf cfgK1 0 with inputs := [.bus (.read (cfgK1.rasBase + (0x8 : Offset).toNat) 8)] } : State).inputs =
      .bus (.read (cfgK1.rasBase + (0x8 : Offset).toNat) 8) :: [] ∧
    ({ stateOf cfgK1 0 with
        inputs := [.bus (.write (cfgK1.rasBase + (0x8 : Offset).toNat) (wordBytes .little 5))] } : State).inputs =
      .bus (.write (cfgK1.rasBase + (0x8 : Offset).toNat) (wordBytes cfgK1.byteOrder 5)) :: [] := ⟨rfl, rfl⟩
/-- A size that is not admitted, beside admitted ones; and, of the right size, the byte before the first register, and the
block above the last one. -/
theorem witness_OtherBusAccessesAreRefused : (BusAccess.read 0x1008 2).size ≠ 8 ∧ 2 ∉ cfgParts.accessSizes ∧
    (BusAccess.read 0x1007 8).size = 8 ∧
    (∀ n, n ≤ 65534 → (BusAccess.read 0x1007 8).addr ≠ cfgK1.rasBase + offsetOf n) ∧
    (∀ n, n ≤ 65534 → (BusAccess.read 0x400FC8 8).addr ≠ cfgK1.rasBase + offsetOf n) := by
  refine ⟨by decide, by decide, rfl, fun n _ => ?_, fun n _ => ?_⟩ <;>
    simp only [BusAccess.addr, cfgK1, config, offsetOf] <;> omega
theorem witness_ByteOrderView : (wordBytes .little 0x0123456789ABCDEF)[0]? = some 0xEF ∧
    (wordBytes .big 0x0123456789ABCDEF)[0]? = some 0x01 := by decide
theorem witness_LayoutFollowsTable : cfgK1.presentRecord 0 = some (record 0 frK1) := by decide
theorem witness_ControlStandsAtItsMask : cfgK2.kind 0 15 = .ctrl .wdfi ∧ cfgK2.kind 0 0 = .ctrl .ed := by decide
theorem witness_WellFormedConfigurationNodes : cfgP3.wf = true ∧ cfgP3.implemented 1 = true ∧
    cfgP3.presentRecord 2 = some (record 2 frK1) ∧ cfgP3.rasv2 = true ∧ (record 2 frK1).fr.dfi = 0b10#2 := by decide
theorem witness_WellFormedConfigurationSplit : cfgK2.wf = true ∧
    cfgK2.presentRecord 0 = some (record 0 frK2) ∧ cfgK2.rasv2 = true ∧ (record 0 frK2).fr.dfi = 0b11#2 := by decide
theorem witness_IllFormedConfigurationIsRefused :
    (stateOf (config true [record 0 { frK2 with fi := 2 }]) 0).cfg.wf = false := by decide
theorem witness_ReadOfPresentRegister : recordOf 0x8 = .ok 0 ∧
    (stateOf cfgK1 5).cfg.presentRecord 0 = some (record 0 frK1) := ⟨rfl, by decide⟩
theorem witness_WriteOfPresentRegister : recordOf 0x8 = .ok 0 ∧
    (stateOf cfgK1 5).cfg.presentRecord 0 = some (record 0 frK1) ∧
    WritePolicy ((stateOf cfgK1 5).lastReadOf 0) 0x751D :=
  ⟨rfl, by decide, (sbzpAdmits_iff _ _).mp (by decide)⟩
/-- A write outside the policy at each end of the bits it is about. -/
theorem witness_WriteIsRefusedExactlyOutsidePolicy : recordOf 0x8 = .ok 0 ∧
    (stateOf cfgK1 5).cfg.presentRecord 0 = some (record 0 frK1) ∧
    ¬ WritePolicy ((stateOf cfgK1 5).lastReadOf 0) 0x2 ∧
    ¬ WritePolicy ((stateOf cfgK1 5).lastReadOf 0) 0x8000000000000000 :=
  ⟨rfl, by decide, (sbzpAdmits_iff _ _).not.mp (by decide), (sbzpAdmits_iff _ _).not.mp (by decide)⟩
theorem witness_AbsentRegisterAccess : recordOf 0x48 = .ok 1 ∧ (stateOf cfgP3 5).cfg.present 1 = false :=
  ⟨rfl, by decide⟩
theorem witness_ReadAfterWrite : recordOf 0x8 = .ok 0 ∧
    (stateOf cfgK1 0).cfg.presentRecord 0 = some (record 0 frK1) ∧
    ∃ t u : State, exec (.write 0x8 5) (stateOf cfgK1 0) = .next t ∧ u.cfg = t.cfg ∧ u.ctlrOf 0 = t.ctlrOf 0 :=
  ⟨rfl, by decide, _, _, rfl, rfl, rfl⟩
theorem witness_AccessIsLocal : (∃ t, exec (.read 0x8) (stateOf cfgK1 0) = .next t) ∧
    (∃ t, exec (.write 0x8 5) (stateOf cfgK1 0) = .next t) ∧ recordOf (Instr.read 0x8).offset ≠ .ok 1 :=
  ⟨⟨_, rfl⟩, ⟨_, rfl⟩, by decide⟩
/-- An event of the node and a write to another record stand between the two reads. -/
theorem witness_TwoReadsAgree : recordOf 0x8 = .ok 0 ∧
    cfgP3.presentRecord 0 = some (record 0 frK1) ∧
    (∀ i ∈ quietInputs.take 2, LeavesRegister cfgP3 0 i) ∧
    ∃ t u, exec (.read 0x8) { stateOf cfgP3 0x751C with inputs := quietInputs } = .next t ∧
      t.inputs = quietInputs ∧ runSteps 2 t = .next u :=
  ⟨rfl, by decide, quietInputs_leave, _, _, rfl, rfl, rfl⟩
theorem witness_ReadModifyWriteIsAdmitted : recordOf 0x8 = .ok 0 ∧
    (stateOf cfgK1 5).cfg.presentRecord 0 = some (record 0 frK1) ∧ onlyControls true frK1 0x100 = true ∧
    onlyControls true frK1 0x751D = true ∧ ∃ t, exec (.read 0x8) (stateOf cfgK1 5) = .next t :=
  ⟨rfl, by decide, by decide, by decide, _, rfl⟩
theorem witness_EarlierWriteIsLost : recordOf 0x8 = .ok 0 ∧
    (stateOf cfgK1 5).cfg.presentRecord 0 = some (record 0 frK1) ∧
    ∃ t u, exec (.write 0x8 0x105) (stateOf cfgK1 5) = .next t ∧ exec (.write 0x8 0x4) t = .next u :=
  ⟨rfl, by decide, _, _, rfl, rfl⟩
theorem witness_ColdResetSetsED : (stateOf cfgK1 5).cfg.presentRecord 0 = some (record 0 frK1) ∧
    (record 0 frK1).fr.ed = 0b10#2 ∧ cfgK1.wf = true ∧
    ({ stateOf cfgK1 5 with inputs := [.reset] } : State).inputs = .reset :: [] := ⟨by decide, rfl, by decide, rfl⟩
/-- With ED reset to 1, a control other than ED; and a Hardwired bit. -/
theorem witness_ColdResetStep :
    (config true [{ record 0 frK1 with coldResetED := true }]).wf = true ∧
    (config true [{ record 0 frK1 with coldResetED := true }]).presentRecord 0 =
      some { record 0 frK1 with coldResetED := true } ∧
    (config true [{ record 0 frK1 with coldResetED := true }]).kind 0 2 = .ctrl .ui ∧
    hardwired true { record 0 frK1 with coldResetED := true } 5 = true := by decide
theorem witness_IdleAndPreservingStepsChangeNothing : cfgK1.wf = true ∧ (stateOf cfgK1 5).inputs = [] ∧
    ({ stateOf cfgK1 5 with inputs := [.preservingReset] } : State).inputs = .preservingReset :: [] :=
  ⟨by decide, rfl, rfl⟩
theorem witness_EventChangesNoRegister :
    EventAt { stateOf cfgK1 5 with inputs := [.event (errorEvent 0 .corrected .read)] }
      (errorEvent 0 .corrected .read) 0 (record 0 frK1) [] := eventAt_K1 _ _ _
theorem witness_EventCompletesForImplementedRecord : cfgP3.wf = true ∧ cfgP3.implemented 1 = true ∧
    cfgP3.implemented 3 = false := by decide
theorem witness_DisabledReportingIsSilent :
    EventAt { stateOf cfgK1 0x751C with inputs := [.event (errorEvent 0 .uncorrected .read)] }
      (errorEvent 0 .uncorrected .read) 0 (record 0 frK1) [] ∧ (record 0 frK1).fr.ed = 0b10#2 ∧
    ((stateOf cfgK1 0x751C).ctlrOf 0).getLsbD 0 = false := ⟨eventAt_K1 _ _ _, rfl, by decide⟩
theorem witness_EriForUncorrectedErrors :
    EventAt { stateOf cfgK2 5 with inputs := [.event (errorEvent 0 .uncorrected .write)] }
      (errorEvent 0 .uncorrected .write) 0 (record 0 frK2) [] ∧
    uncontained cfgK2 (record 0 frK2) 5 (errorEvent 0 .uncorrected .write) = false := ⟨eventAt_K2 _ _ _, by decide⟩
theorem witness_EriForDeferredErrors :
    EventAt { stateOf cfgK1 5 with inputs := [.event (errorEvent 0 .deferred .read)] }
      (errorEvent 0 .deferred .read) 0 (record 0 frK1) [] ∧
    EventAt { stateOf cfgK1 5 with inputs := [.event (errorEvent 0 .corrected .read)] }
      (errorEvent 0 .corrected .read) 0 (record 0 frK1) [] ∧
    uncontained cfgK1 (record 0 frK1) 5 (errorEvent 0 .deferred .read) = false :=
  ⟨eventAt_K1 _ _ _, eventAt_K1 _ _ _, by decide⟩
theorem witness_FhiForDeferredErrorsIsXor :
    EventAt { stateOf cfgK1 9 with inputs := [.event (errorEvent 0 .deferred .read)] }
      (errorEvent 0 .deferred .read) 0 (record 0 frK1) [] ∧
    EventAt { stateOf cfgK2 9 with inputs := [.event (errorEvent 0 .deferred .write)] }
      (errorEvent 0 .deferred .write) 0 (record 0 frK2) [] ∧
    EventAt { stateOf cfgK2 9 with inputs := [.event (errorEvent 0 .deferred .read)] }
      (errorEvent 0 .deferred .read) 0 (record 0 frK2) [] ∧
    cfgK1.rasv2 = true ∧ (record 0 frK1).hasCECounter = false ∧ frK1.dfi = 0b10#2 ∧ frK2.dfi = 0b11#2 :=
  ⟨eventAt_K1 _ _ _, eventAt_K2 _ _ _, eventAt_K2 _ _ _, rfl, rfl, rfl, rfl⟩
/-- One state for each of the three clauses: no DFI control and no CFI control in configuration K0 without v2. -/
theorem witness_FhiBaseEnables :
    EventAt { stateOf cfgK1 9 with inputs := [.event (errorEvent 0 .uncorrected .read)] }
      (errorEvent 0 .uncorrected .read) 0 (record 0 frK1) [] ∧
    isCEEvent cfgK1 (record 0 frK1) 9 (errorEvent 0 .uncorrected .read) = false ∧
    EventAt { stateOf (config false [record 0 frK0]) 1 with inputs := [.event (errorEvent 0 .deferred .read)] }
      (errorEvent 0 .deferred .read) 0 (record 0 frK0) [] ∧
    isCEEvent (config false [record 0 frK0]) (record 0 frK0) 1 (errorEvent 0 .deferred .read) = false ∧
    EventAt { stateOf (config false [record 0 frK0]) 1 with inputs := [.event (errorEvent 0 .corrected .read)] }
      (errorEvent 0 .corrected .read) 0 (record 0 frK0) [] ∧
    isCEEvent (config false [record 0 frK0]) (record 0 frK0) 1 (errorEvent 0 .corrected .read) = true ∧
    frK0.cfi ≠ 0b10#2 ∧ frK0.cfi ≠ 0b11#2 :=
  ⟨eventAt_K1 _ _ _, by decide, eventAt_noDfi _, by decide, eventAt_noDfi _, by decide, by decide, by decide⟩
/-- Without a counter; with CED = 1; in the counter case. -/
theorem witness_FhiForCorrectedErrors :
    EventAt { stateOf cfgK1 0x1101 with inputs := [.event (errorEvent 0 .corrected .read)] }
      (errorEvent 0 .corrected .read) 0 (record 0 frK1) [] ∧
    (record 0 frK1).hasCECounter = false ∧ frK1.cfi = 0b10#2 ∧ cfgK1.kind 0 12 = .ctrl .ced ∧
    ((stateOf cfgK1 0x1101).ctlrOf 0).getLsbD 12 = true ∧
    (config true [{ record 0 frK1 with hasCECounter := true }]).wf = true ∧
    ((stateOf (config true [{ record 0 frK1 with hasCECounter := true }]) 0x101).ctlrOf 0).getLsbD 12 = false :=
  ⟨eventAt_K1 _ _ _, rfl, rfl, by decide, by decide, by decide, by decide⟩
theorem witness_FhiInTotal :
    EventAt { stateOf cfgK2 9 with inputs := [.event (errorEvent 0 .deferred .write)] }
      (errorEvent 0 .deferred .write) 0 (record 0 frK2) [] ∧
    uncontained cfgK2 (record 0 frK2) 9 (errorEvent 0 .deferred .write) = false := ⟨eventAt_K2 _ _ _, by decide⟩
/-- With the control CI, and without it. -/
theorem witness_CriticalErrorInterrupt :
    EventAt { stateOf cfgK1 5 with inputs := [.event (errorEvent 0 .corrected .read)] }
      (errorEvent 0 .corrected .read) 0 (record 0 frK1) [] ∧ frK1.ci = 0b10#2 ∧
    EventAt { stateOf (config false [record 0 frK0]) 1 with inputs := [.event (errorEvent 0 .corrected .read)] }
      (errorEvent 0 .corrected .read) 0 (record 0 frK0) [] ∧ frK0.ci ≠ 0b10#2 :=
  ⟨eventAt_K1 _ _ _, rfl, eventAt_noDfi _, by decide⟩
theorem witness_InBandErrorForUncorrectedErrors :
    EventAt { stateOf cfgK1 0x11 with
        inputs := [.event { errorEvent 0 .uncorrected .read with notCorrectedNotDeferred := true }] }
      { errorEvent 0 .uncorrected .read with notCorrectedNotDeferred := true } 0 (record 0 frK1) [] ∧
    uncontained cfgK1 (record 0 frK1) 0x11
      { errorEvent 0 .uncorrected .read with notCorrectedNotDeferred := true } = false :=
  ⟨⟨by decide, rfl, by decide, by decide⟩, by decide⟩
theorem witness_InBandErrorForDeferredErrors :
    EventAt { stateOf cfgK1 0x11 with inputs := [.event (errorEvent 0 .deferred .read)] }
      (errorEvent 0 .deferred .read) 0 (record 0 frK1) [] ∧
    uncontained cfgK1 (record 0 frK1) 0x11 (errorEvent 0 .deferred .read) = false ∧
    (errorEvent 0 .deferred .read).notCorrectedNotDeferred = false := ⟨eventAt_K1 _ _ _, by decide, rfl⟩
theorem witness_ReportOfRecording :
    EventAt { stateOf cfgK1 0 with inputs := [.event (errorEvent 0 .deferred .read)] }
      (errorEvent 0 .deferred .read) 0 (record 0 frK1) [] ∧
    EventAt { stateOf cfgK1 1 with inputs := [.event (errorEvent 0 .deferred .read)] }
      (errorEvent 0 .deferred .read) 0 (record 0 frK1) [] := ⟨eventAt_K1 _ _ _, eventAt_K1 _ _ _⟩
theorem witness_DiscardedSyndromeHasNoBearing :
    EventAt { stateOf cfgK1 5 with inputs := [.event (errorEvent 0 .uncorrected .read)] }
      (errorEvent 0 .uncorrected .read) 0 (record 0 frK1) [] := eventAt_K1 _ _ _
/-- The registers differ in RES0 bits 15 and 16 and in the IMPLEMENTATION DEFINED bits 1 and 63 only. -/
theorem witness_OnlyControlsAffectReports :
    EventAt { stateOf cfgK1 5 with inputs := [.event (errorEvent 0 .uncorrected .read)] }
      (errorEvent 0 .uncorrected .read) 0 (record 0 frK1) [] ∧
    ∀ i c, cfgK1.kind 0 i = .ctrl c →
      ((stateOf cfgK1 5).ctlrOf 0).getLsbD i =
        (({ stateOf cfgK1 5 with ctlr := [(0, 0x8000000000018007)] } : State).ctlrOf 0).getLsbD i := by
  refine ⟨eventAt_K1 _ _ _, fun i c h => ?_⟩
  rw [kind_of_present present_K1] at h
  have hi := kindPresent_ctrl_lt h
  have ha : ∀ j : Fin 16, (kindPresent true frK1 j = .res0 ∨ kindPresent true frK1 j = .impdef) ∨
      (0x5 : Word).getLsbD j = (0x8000000000018007 : Word).getLsbD j := by decide
  rcases ha ⟨i, hi⟩ with (h' | h') | h'
  · exact absurd (h.symm.trans h') (by simp)
  · exact absurd (h.symm.trans h') (by simp)
  · exact h'
/-- The registers differ in the write bits only. -/
theorem witness_WriteControlsDoNotAffectReads :
    EventAt { stateOf cfgK2 5 with inputs := [.event (errorEvent 0 .uncorrected .read)] }
      (errorEvent 0 .uncorrected .read) 0 (record 0 frK2) [] ∧
    ∀ i, i ∉ [5, 6, 7, 9, 11, 15] → ((stateOf cfgK2 5).ctlrOf 0).getLsbD i =
      (({ stateOf cfgK2 5 with ctlr := [(0, 0x8AE5)] } : State).ctlrOf 0).getLsbD i := by
  refine ⟨eventAt_K2 _ _ _, fun i h => ?_⟩
  have ha : ∀ j : Fin 64, (j : Nat) ∉ [5, 6, 7, 9, 11, 15] → (0x5 : Word).getLsbD j = (0x8AE5 : Word).getLsbD j := by
    decide
  by_cases hi : i < 64
  · exact ha ⟨i, hi⟩ h
  · rw [BitVec.getLsbD_of_ge _ _ (by omega), BitVec.getLsbD_of_ge _ _ (by omega)]
/-- The registers differ in the read bits only. -/
theorem witness_ReadControlsDoNotAffectWrites :
    EventAt { stateOf cfgK2 1 with inputs := [.event (errorEvent 0 .uncorrected .write)] }
      (errorEvent 0 .uncorrected .write) 0 (record 0 frK2) [] ∧
    cfgK2.rasv2 = true ∧ frK2.ui = 0b11#2 ∧ frK2.fi = 0b11#2 ∧ frK2.ue = 0b11#2 ∧ frK2.cfi = 0b11#2 ∧
    frK2.dui = 0b11#2 ∧ frK2.dfi = 0b11#2 ∧
    ∀ i, i ∉ [2, 3, 4, 8, 10, 14] → ((stateOf cfgK2 1).ctlrOf 0).getLsbD i =
      (({ stateOf cfgK2 1 with ctlr := [(0, 0x451D)] } : State).ctlrOf 0).getLsbD i := by
  refine ⟨eventAt_K2 _ _ _, rfl, rfl, rfl, rfl, rfl, rfl, rfl, fun i h => ?_⟩
  have ha : ∀ j : Fin 64, (j : Nat) ∉ [2, 3, 4, 8, 10, 14] → (0x1 : Word).getLsbD j = (0x451D : Word).getLsbD j := by
    decide
  by_cases hi : i < 64
  · exact ha ⟨i, hi⟩ h
  · rw [BitVec.getLsbD_of_ge _ _ (by omega), BitVec.getLsbD_of_ge _ _ (by omega)]
/-- A state that meets the invariant, with a register present and an access to come. -/
theorem witness_StepKeepsInvariant :
    ({ stateOf cfgK1 0 with inputs := [.access (encode (.write 0x8 0x751D))] } : State).Inv ∧
    ∃ t, step { stateOf cfgK1 0 with inputs := [.access (encode (.write 0x8 0x751D))] } = .next t := by
  refine ⟨⟨by decide, by decide, fun n r i h _ => ?_, rfl, fun n r i v _ h _ => ?_, fun n v _ h => ?_⟩, _, rfl⟩
  · obtain ⟨rfl, -⟩ := present_one h
    show (0 : Word).getLsbD i = false
    simp
  · cases h
  · cases h
theorem witness_ResetMeetsInvariant : Config.atReset.wf = true ∧ cfgP3.wf = true := by decide
theorem witness_OnlyWriteOrResetChangesRegister :
    ∃ t, step { stateOf cfgK1 0 with inputs := [.access (encode (.write 0x8 1))] } = .next t ∧
      t.ctlrOf 0 ≠ (stateOf cfgK1 0).ctlrOf 0 := by
  refine ⟨_, rfl, fun h => ?_⟩
  have h0 := congrArg (fun w => BitVec.getLsbD w 0) h
  have hk : kindPresent true (record 0 frK1).fr 0 = .ctrl .ed := by decide
  have hw : (writeWord true (record 0 frK1) 0 1 (Config.draw 0 0)).getLsbD 0 = true := writeWord_ctrl hk
  exact absurd (hw.symm.trans h0) (by decide)
theorem witness_OnlyEventsGenerateSignals :
    ∃ t, step { stateOf cfgK1 5 with inputs := [.event (errorEvent 0 .uncorrected .read)] } = .next t := ⟨_, rfl⟩
theorem witness_StepKeepsParameters : ∃ t, step { stateOf cfgK1 5 with inputs := [.reset] } = .next t := ⟨_, rfl⟩
/-- The registers of node B differ. -/
theorem witness_OtherNodesDoNotAffectReport :
    EventAt { stateOf cfgP3 5 with inputs := [.event (errorEvent 1 .uncorrected .read)] }
      (errorEvent 1 .uncorrected .read) 0 (record 0 frK1) [] ∧
    (({ stateOf cfgP3 5 with ctlr := [(0, 5), (2, 1)] } : State).ctlrOf 0) = (stateOf cfgP3 5).ctlrOf 0 :=
  ⟨⟨by decide, rfl, by decide, by decide⟩, by decide⟩
/-- The reset after the two steps is not one of them. -/
theorem witness_DisabledNodeStaysSilent : cfgP3.presentRecord 0 = some (record 0 frK1) ∧ frK1.ed = 0b10#2 ∧
    ((stateOf cfgP3 0x751C).ctlrOf 0).getLsbD 0 = false ∧
    (∀ i ∈ quietInputs.take 2, LeavesRegister cfgP3 0 i) ∧
    ∃ t, runSteps 2 { stateOf cfgP3 0x751C with inputs := quietInputs } = .next t :=
  ⟨by decide, rfl, by decide, quietInputs_leave, _, rfl⟩
theorem witness_RegisterHeldThroughQuietSteps : (∀ i ∈ quietInputs.take 2, LeavesRegister cfgP3 0 i) ∧
    ∃ t, runSteps 2 { stateOf cfgP3 5 with inputs := quietInputs } = .next t := ⟨quietInputs_leave, _, rfl⟩
/-- An access that completes, and one outside the write policy. -/
theorem witness_DecodedAccessCompletesOrBreaksPolicy : cfgK1.wf = true ∧
    decode (encode (.read 0x8)) = .ok (.read 0x8) ∧ decode (encode (.write 0x8 2)) = .ok (.write 0x8 2) ∧
    recordOf 0x8 = .ok 0 ∧ cfgK1.present 0 = true ∧ ¬ WritePolicy ((stateOf cfgK1 5).lastReadOf 0) 2 :=
  ⟨by decide, rfl, rfl, rfl, by decide, (sbzpAdmits_iff _ _).not.mp (by decide)⟩

theorem partAccessAt_parts (b : BusAccess) (p : Part) (hn : p.n = 0) (h : b.size = p.size) (h1 : p.size ∈ [1, 4])
    (ha : b.addr = 0x1008 + p.first) (hf : p.fits = true) :
    PartAccessAt { stateOf cfgParts 5 with inputs := [.bus b] } b p (record 0 frK1) [] := by
  refine ⟨show cfgParts.wf = true by decide, rfl, ⟨h1, ?_⟩, h, ?_, hf, ?_⟩
  · intro e
    rw [e] at h1
    exact absurd h1 (by decide)
  · rw [ha, hn]
    rfl
  · rw [hn]
    show cfgParts.presentRecord 0 = some (record 0 frK1)
    decide

/-- The parts at both ends of a register. -/
theorem witness_PartBytesView : Part.fits ⟨0, 0, 4⟩ = true ∧ Part.fits ⟨0, 7, 1⟩ = true ∧
    Part.covers ⟨0, 7, 1⟩ .little 63 = true ∧ Part.covers ⟨0, 7, 1⟩ .little 55 = false ∧
    Part.covers ⟨0, 0, 4⟩ .big 63 = true ∧ Part.covers ⟨0, 0, 4⟩ .big 31 = false := by decide
theorem witness_PartReadOfPresentRegister :
    PartAccessAt { stateOf cfgParts 5 with inputs := [.bus (.read 0x100C 4)] } (.read 0x100C 4) ⟨0, 4, 4⟩
      (record 0 frK1) [] := partAccessAt_parts _ _ rfl rfl (by decide) rfl (by decide)
theorem witness_PartWriteOfPresentRegister :
    PartAccessAt { stateOf cfgParts 5 with inputs := [.bus (.write 0x1009 [0x75])] } (.write 0x1009 [0x75]) ⟨0, 1, 1⟩
      (record 0 frK1) [] ∧
    WritePolicy ((stateOf cfgParts 5).lastReadOf 0) (Part.wordOf ⟨0, 1, 1⟩ .little [0x75]) :=
  ⟨partAccessAt_parts _ _ rfl rfl (by decide) rfl (by decide), (sbzpAdmits_iff _ _).mp (by decide +kernel)⟩
theorem witness_PartWriteIsRefusedExactlyOutsidePolicy :
    PartAccessAt { stateOf cfgParts 5 with inputs := [.bus (.write 0x1008 [0x02])] } (.write 0x1008 [0x02]) ⟨0, 0, 1⟩
      (record 0 frK1) [] ∧
    ¬ WritePolicy ((stateOf cfgParts 5).lastReadOf 0) (Part.wordOf ⟨0, 0, 1⟩ .little [0x02]) :=
  ⟨partAccessAt_parts _ _ rfl rfl (by decide) rfl (by decide), (sbzpAdmits_iff _ _).not.mp (by decide +kernel)⟩
theorem witness_AbsentPartAccess : cfgParts.wf = true ∧ cfgParts.present 1 = false ∧
    busToPart cfgParts (.read 0x104C 4) = .ok ⟨1, 4, 4⟩ ∧ busToPart cfgParts (.write 0x1048 [5]) = .ok ⟨1, 0, 1⟩ :=
  ⟨by decide, by decide, rfl, rfl⟩
theorem witness_HalfWritesMakeTheWrite : cfgParts.wf = true ∧ cfgParts.presentRecord 0 = some (record 0 frK1) ∧
    4 ∈ cfgParts.accessSizes ∧ WritePolicy ((stateOf cfgParts 5).lastReadOf 0) 0x751D :=
  ⟨by decide, by decide, by decide, (sbzpAdmits_iff _ _).mp (by decide)⟩
/-- An admitted size across the middle of a register; and one that no register is large enough for. -/
theorem witness_AccessOutsidePartsIsRefused :
    (∀ p : Part, p.n ≤ 65534 → p.size = (BusAccess.read 0x100A 4).size → p.fits = true →
      (BusAccess.read 0x100A 4).addr ≠ cfgParts.rasBase + offsetOf p.n + p.first) ∧
    (∀ p : Part, p.n ≤ 65534 → p.size = (BusAccess.read 0x1008 16).size → p.fits = true →
      (BusAccess.read 0x1008 16).addr ≠ cfgParts.rasBase + offsetOf p.n + p.first) := by
  refine ⟨fun p _ hs hf => ?_, fun p _ hs hf => ?_⟩
  all_goals
    obtain ⟨-, hm, h8⟩ := fits_iff.mp hf
    simp only [BusAccess.size] at hs
    rw [hs] at hm h8
    simp only [BusAccess.addr, cfgParts, cfgK1, config, offsetOf]
    omega

end Sys2Proof.Tests
end

section
/-!
PROOF. The layout table of 10_state.md R25, row by row: one lemma for each shape of a row, and the rows put together.
-/

namespace Sys2Proof

variable {v2 : Bool} {fr : FR} {i : Nat}

theorem bitWhen_beq {w : Nat} (x y : BitVec w) (c : Ctrl) :
    bitWhen (x == y) c = if x = y then .ctrl c else .res0 := by
  simp [bitWhen]

/-- Above bit 15 the features have no bearing: RES0, but for the IMPLEMENTATION DEFINED bits 63:32. -/
theorem kindPresent_of_ge (h : 16 ≤ i) : kindPresent v2 fr i = if 32 ≤ i ∧ i < 64 then .impdef else .res0 := by
  unfold kindPresent
  split
  case h_17 => rfl
  all_goals omega

theorem kindPresent_ced : kindPresent v2 fr 12 =
    if v2 = true ∧ fr.cec ≠ 0b000#3 ∧ fr.ced = 1#1 then .ctrl .ced else .res0 := by
  simp [kindPresent, bitWhen, cedExists, and_assoc]

theorem kindPresent_dfi : kindPresent v2 fr 14 =
    if v2 = true ∧ fr.dfi = 0b10#2 then .ctrl .dfi
    else if v2 = true ∧ fr.dfi = 0b11#2 then .ctrl .rdfi else .res0 := by
  cases v2 with
  | false => simp [kindPresent]
  | true => simp [kindPresent, lowBit]

theorem kindPresent_wdfi : kindPresent v2 fr 15 =
    if v2 = true ∧ fr.dfi = 0b11#2 then .ctrl .wdfi else .res0 := by
  simp [kindPresent, bitWhen]

/-- Settles O11: each row is the model's row by definition for a single or split control (`lowBit`), by `bitWhen_beq`
for a control with one condition, and by its own lemma where RAS v2 is a condition too. -/
theorem layoutFollowsTable : Obligations.LayoutFollowsTable := by
  intro cfg n r hp
  simp only [kind_of_present hp]
  refine ⟨fun i h32 h64 => ?_, rfl, fun i h16 h32 => ?_, kindPresent_wdfi, kindPresent_dfi, bitWhen_beq ..,
    kindPresent_ced, bitWhen_beq .., rfl, bitWhen_beq .., rfl, bitWhen_beq .., bitWhen_beq .., bitWhen_beq .., rfl, rfl,
    rfl, bitWhen_beq ..⟩
  · rw [kindPresent_of_ge (by omega), if_pos ⟨h32, h64⟩]
  · rw [kindPresent_of_ge h16, if_neg (by omega)]

end Sys2Proof
end

section
/-!
PROOF. What the step of an input is under a well-formed configuration, and the value of ED after a Cold reset
(10_state.md R47, 70_reset_and_hazards.md R170).
-/

namespace Sys2Proof.Machine

variable {s : State} {n : Nat} {r : Record} {rest : List Input}

/-- Under a well-formed configuration the step is the next input's, with the input taken from the queue. -/
theorem step_cons {i : Input} (hw : s.cfg.wf = true) (hi : s.inputs = i :: rest) :
    step s = takeInput i { s with inputs := rest } := by
  simp [step, takeNext, hw, hi]

theorem step_reset (hw : s.cfg.wf = true) (hi : s.inputs = .reset :: rest) :
    step s = .next ({ s with inputs := rest } : State).coldReset :=
  step_cons hw hi

theorem resetFor_ctlrOf {cfg : Config} (hp : cfg.presentRecord n = some r) :
    (State.resetFor cfg).ctlrOf n = resetWord cfg.rasv2 r (Config.draw 0 n) := by
  simp [State.ctlrOf, State.resetFor, get_resetRegisters hp]

theorem coldReset_ctlrOf (hp : s.cfg.presentRecord n = some r) :
    s.coldReset.ctlrOf n = resetWord s.cfg.rasv2 r (s.drawn n) := by
  simp [State.ctlrOf, State.drawn, get_resetRegisters hp]

/-- Settles O24: either reset leaves the reset word in the register, and bit 0 of that word is the parameter. -/
theorem coldResetSetsED : Obligations.ColdResetSetsED := by
  intro s n r hp hed
  constructor
  · rw [resetFor_ctlrOf hp]
    exact resetWord_ed hed
  · intro rest hw hi
    refine ⟨_, step_reset hw hi, ?_⟩
    rw [coldReset_ctlrOf (s := { s with inputs := rest }) hp]
    exact resetWord_ed hed

end Sys2Proof.Machine
end

section
/-!
PROOF. The signals of an error event, one by one (60_exceptions.md R126, R127, R135, R137). The model's `reporting` and
`sel` meet the spec's words for them; each signal of a report is then reporting and its enable.
-/

namespace Sys2Proof.Machine

variable {cfg : Config} {r : Record} {c d : Word} {ev : ErrorEvent} {node : Nat}

theorem reportingIs_reporting (r : Record) (c : Word) : ReportingIs r c (reporting r c) :=
  ⟨fun h => if_pos h, fun h => if_neg h⟩

/-- The selector of R125, row by row: single, split on reads, split on writes, and no control. -/
theorem controlIs_sel (r : Record) (c : Word) (f : Feature) (lo hi : Nat) (dir : Dir) :
    ControlIs (r.fr.field f) (r.fixedEnable.get f) (c.getLsbD lo) (c.getLsbD hi) dir (sel r c f lo hi dir) := by
  refine ⟨fun h => ?_, fun h hd => ?_, fun h hd => ?_, fun h2 h3 => ?_⟩
  · simp [sel, h]
  · simp [sel, h, hd]
  · simp [sel, h, hd]
  · simp [sel, h2, h3]

/-- But for an uncontained error the signals are those of R141, where reporting is on. -/
theorem eventReport_signals (hu : uncontained cfg r c ev = false) :
    (eventReport cfg node r c ev d).signals =
      if reporting r c then enabledSignals cfg r c ev else Signals.none := by
  cases hr : reporting r c <;> simp [eventReport, signals, hr, hu]

theorem eventReport_eri (hu : uncontained cfg r c ev = false) :
    (eventReport cfg node r c ev d).signals.eri = (reporting r c && (enabledSignals cfg r c ev).eri) := by
  rw [eventReport_signals hu]
  cases reporting r c <;> rfl

theorem eventReport_inBandError (hu : uncontained cfg r c ev = false) :
    (eventReport cfg node r c ev d).signals.inBandError =
      (reporting r c && (enabledSignals cfg r c ev).inBandError) := by
  rw [eventReport_signals hu]
  cases reporting r c <;> rfl

theorem enabledSignals_eri_uncorrected (h : ev.recordedAs = .uncorrected) :
    (enabledSignals cfg r c ev).eri = eriU r c ev.dir := by
  simp [enabledSignals, h]

theorem enabledSignals_eri_deferred (h : ev.recordedAs = .deferred) :
    (enabledSignals cfg r c ev).eri = eriD r c ev.dir := by
  simp [enabledSignals, h]

/-- No class other than Uncorrected and Deferred enables the error recovery interrupt (R127, last sentence). -/
theorem enabledSignals_eri_other (h : ev.recordedAs = .corrected ∨ ev.recordedAs = .unrecorded) :
    (enabledSignals cfg r c ev).eri = false := by
  rcases h with h | h <;> simp [enabledSignals, h]

/-- The second cause of the in-band response (R138) has the enable of the first, so it adds nothing to it. -/
theorem enabledSignals_inBandError_uncorrected (h : ev.notCorrectedNotDeferred = true) :
    (enabledSignals cfg r c ev).inBandError = ue r c ev.dir := by
  cases hu : ue r c ev.dir <;> simp [enabledSignals, h, hu]

/-- An uncontained error is one whose control CI exists and is 0, which does not enable the critical error interrupt
(R136). -/
theorem cri_of_uncontained (hu : uncontained cfg r c ev = true) : cri r c = false := by
  simp only [uncontained, Bool.and_eq_true, beq_iff_eq, Bool.not_eq_true'] at hu
  obtain ⟨⟨-, hci⟩, h13⟩ := hu
  rw [cri, if_pos hci, h13]

/-- For every event, uncontained or not (R135, R136). -/
theorem eventReport_cri :
    (eventReport cfg node r c ev d).signals.cri = (reporting r c && ev.critical && cri r c) := by
  cases hu : uncontained cfg r c ev with
  | false =>
    rw [eventReport_signals hu]
    cases reporting r c <;> rfl
  | true =>
    rw [cri_of_uncontained hu]
    cases hr : reporting r c <;> simp [eventReport, signals, hr, hu, Signals.none]

/-- Settles O30: of the two causes of the interrupt only that of Uncorrected errors is left, with the enable UI. -/
theorem eriForUncorrectedErrors : Obligations.EriForUncorrectedErrors := by
  intro s ev n r rest h hrec hu
  refine ⟨_, _, _, reports_event h, reportingIs_reporting _ _, controlIs_sel r _ .ui 2 5 ev.dir, ?_⟩
  rw [eventReport_eri hu, enabledSignals_eri_uncorrected hrec, eriU]

/-- Settles O31: of the two causes of the interrupt only that of Deferred errors is left, with the enable DUI, or none. -/
theorem eriForDeferredErrors : Obligations.EriForDeferredErrors := by
  intro s ev n r rest h hu
  refine ⟨_, _, _, reports_event h, reportingIs_reporting _ _, controlIs_sel r _ .dui 10 11 ev.dir,
    fun hrec => ?_, fun hrec => ?_⟩
  · rw [eventReport_eri hu, enabledSignals_eri_deferred hrec, eriD]
  · rw [eventReport_eri hu, enabledSignals_eri_other hrec, Bool.and_false]

/-- Settles O36: the interrupt is its formula for every event, since an uncontained error has CI = 0. -/
theorem criticalErrorInterrupt : Obligations.CriticalErrorInterrupt := by
  intro s ev n r rest h
  refine ⟨_, _, reports_event h, reportingIs_reporting _ _, fun hci => ?_, fun hci => ?_⟩
  · rw [eventReport_cri, cri, if_pos hci]
  · rw [eventReport_cri, cri, if_neg hci]

/-- Settles O37: the response is reporting and the enable UE, whether or not the error was deferred for others. -/
theorem inBandErrorForUncorrectedErrors : Obligations.InBandErrorForUncorrectedErrors := by
  intro s ev n r rest h hu hnc
  refine ⟨_, _, _, reports_event h, reportingIs_reporting _ _, controlIs_sel r _ .ue 4 7 ev.dir, ?_⟩
  rw [eventReport_inBandError hu, enabledSignals_inBandError_uncorrected hnc, ue]

end Sys2Proof.Machine
end

section
/-!
PROOF. The access format (30_encoding.md R80): an access word that decodes is the word of an access triple, and the
decoder reads the triple back. Bytes are compared through the bits they hold.
-/

namespace Sys2Proof

theorem getElem?_natBytes {k j : Nat} (x : Nat) (h : j < k) :
    (natBytes k x)[j]? = some (BitVec.ofNat 8 (x / 256 ^ j)) := by
  induction k generalizing j x with
  | zero => omega
  | succ k ih =>
    cases j with
    | zero => simp [natBytes]
    | succ j => rw [natBytes, List.getElem?_cons_succ, ih _ (by omega), Nat.div_div_eq_div_mul, pow_succ']

/-- Byte `j` of a word holds its bits `8 j + 7` to `8 j`. -/
theorem getElem?_natBytes_toNat {w k j : Nat} (x : BitVec w) (h : j < k) :
    (natBytes k x.toNat)[j]? = some (x.extractLsb' (8 * j) 8) := by
  refine (getElem?_natBytes _ h).trans (congrArg some (BitVec.eq_of_toNat_eq ?_))
  rw [BitVec.toNat_ofNat, BitVec.extractLsb'_toNat, Nat.shiftRight_eq_div_pow, pow_mul]
  norm_num

/-- An 88-bit number whose filler bit is 0 is the access word of its own fields. -/
theorem accessWord_fields {w : BitVec 88} (h : w.getLsbD 23 = false) :
    accessWord (if w.getLsbD 22 then .write else .read) (w.extractLsb' 0 22) (w.extractLsb' 24 64) = w := by
  apply BitVec.eq_of_getLsbD_eq
  intro i hi
  rw [getLsbD_accessWord]
  split
  · next h22 => simp [h22]
  · split
    · next h22 => subst h22; cases w.getLsbD 22 <;> rfl
    · split
      · next h23 => subst h23; exact h.symm
      · rw [BitVec.getLsbD_extractLsb', show 24 + (i - 24) = i by omega]
        simp [show i - 24 < 64 by omega]

/-- What decodes is the access word of a triple, of which it is decoded. -/
theorem decode_ok {bytes : List Byte} {i : Instr} (h : decode bytes = .ok i) :
    ∃ dir off data, bytes = accessBytes dir off data ∧ decodeAccess dir off data = .ok i := by
  unfold decode at h
  split at h
  · cases h
  next hl =>
  have hl : bytes.length = 11 := not_not.mp hl
  unfold decodeWord at h
  split at h
  · cases h
  next h23 =>
  refine ⟨_, _, _, ?_, h⟩
  rw [accessBytes, accessWord_fields (by simpa using h23), BitVec.toNat_ofNat, Nat.mod_eq_of_lt, ← hl,
    natBytes_bytesNat]
  simpa [hl] using bytesNat_lt bytes

/-- What a triple decodes to says its direction and its offset, which selects a record. -/
theorem decodeAccess_ok {dir : Dir} {off : Offset} {data : Word} {i : Instr} (h : decodeAccess dir off data = .ok i) :
    (∃ n, recordOf off = .ok n) ∧ ((dir = .read ∧ i = .read off) ∨ (dir = .write ∧ i = .write off data)) := by
  unfold decodeAccess at h
  split at h
  · cases h
  next n ho =>
  refine ⟨⟨n, ho⟩, ?_⟩
  cases dir with
  | read => cases h; exact .inl ⟨rfl, rfl⟩
  | write => cases h; exact .inr ⟨rfl, rfl⟩

/-- A decoded operation selects a record. -/
theorem recordOf_decoded {bytes : List Byte} {i : Instr} (h : decode bytes = .ok i) :
    ∃ n, recordOf i.offset = .ok n := by
  obtain ⟨dir, off, data, -, hd⟩ := decode_ok h
  obtain ⟨hn, ⟨-, rfl⟩ | ⟨-, rfl⟩⟩ := decodeAccess_ok hd
  · exact hn
  · exact hn

/-- The datum of an access stands in its bytes 3 to 10 alone. -/
theorem take_accessBytes (dir : Dir) (off : Offset) (v w : Word) :
    (accessBytes dir off v).take 3 = (accessBytes dir off w).take 3 := by
  apply List.ext_getElem?
  intro j
  rw [List.getElem?_take, List.getElem?_take]
  split
  · next hj =>
    rw [accessBytes, accessBytes, getElem?_natBytes_toNat _ (by omega), getElem?_natBytes_toNat _ (by omega)]
    refine congrArg some (BitVec.eq_of_getLsbD_eq fun i hi => ?_)
    have h24 : 8 * j + i < 22 ∨ 8 * j + i = 22 ∨ 8 * j + i = 23 := by omega
    rw [BitVec.getLsbD_extractLsb', BitVec.getLsbD_extractLsb', getLsbD_accessWord, getLsbD_accessWord]
    rcases h24 with h | h | h <;> simp [h]
  · rfl

/-- Settles O1: the bytes of an operation are those of its triple, which the decoder reads back, and the offset of a
well-formed operation selects a record. -/
theorem decodeOfEncodeIsIdentity : Obligations.DecodeOfEncodeIsIdentity := by
  intro i hi
  cases i with
  | read off =>
    have ho := recordOf_of_wf (off := off) hi
    simp [encode, decodeAccess, ho]
  | write off v =>
    have ho := recordOf_of_wf (off := off) hi
    simp [encode, decodeAccess, ho]

/-- Settles O3: the triple of the bytes is the one the operation encodes to, but for the datum of a read. -/
theorem decodedAccessEncodesBack : Obligations.DecodedAccessEncodesBack := by
  intro bytes
  refine ⟨fun off v h => ?_, fun off h => ?_⟩
  · obtain ⟨dir, off', data, rfl, hd⟩ := decode_ok h
    obtain ⟨-, ⟨-, hi⟩ | ⟨rfl, hi⟩⟩ := decodeAccess_ok hd
    · cases hi
    · cases hi; rfl
  · obtain ⟨dir, off', data, rfl, hd⟩ := decode_ok h
    obtain ⟨-, ⟨rfl, hi⟩ | ⟨-, hi⟩⟩ := decodeAccess_ok hd
    · cases hi
      exact ⟨take_accessBytes .read off 0 data, by simp⟩
    · cases hi

/-- Settles O4: by the three cases of an offset. -/
theorem offsetSelectsRecordExactly : Obligations.OffsetSelectsRecordExactly := by
  intro off n
  rcases recordOf_cases off with ⟨h8, e⟩ | ⟨h8, hn, e⟩ | ⟨h8, hn, e⟩ <;> rw [e]
  · exact iff_of_false nofun fun h => h8 h.1
  · exact iff_of_false nofun fun ⟨_, h, hle⟩ => by omega
  · constructor
    · rintro ⟨⟩
      exact ⟨h8, rfl, hn⟩
    · rintro ⟨-, rfl, -⟩
      rfl

/-- Settles O5: `8 + 64 n` has low six bits 8 and index `n`. -/
theorem recordOffsetSelectsRecord : Obligations.RecordOffsetSelectsRecord := by
  intro n hn
  have hlt : offsetOf n < 2 ^ 22 := by unfold offsetOf; omega
  refine ⟨hlt, by unfold offsetOf; omega, (offsetSelectsRecordExactly _ n).mpr ?_⟩
  rw [BitVec.toNat_ofNat, Nat.mod_eq_of_lt hlt, offsetOf]
  omega

/-- Settles O2: six words, each decoded by evaluation. -/
theorem writtenOutAccessesDecode : Obligations.WrittenOutAccessesDecode := by
  unfold Obligations.WrittenOutAccessesDecode
  decide

/-- The byte that holds bit `i`, in either byte order (20_memory.md R67). -/
theorem getElem?_wordBytes (order : ByteOrder) (v : Word) {i : Nat} (h : i < 64) :
    (wordBytes order v)[byteAt order i]? = some (v.extractLsb' (8 * (i / 8)) 8) := by
  cases order with
  | little =>
    show (natBytes 8 v.toNat)[i / 8]? = _
    exact getElem?_natBytes_toNat v (by omega)
  | big =>
    show (natBytes 8 v.toNat).reverse[7 - i / 8]? = _
    rw [List.getElem?_reverse (by simp; omega), natBytes_length, show 8 - 1 - (7 - i / 8) = i / 8 by omega,
      getElem?_natBytes_toNat v (by omega)]

/-- Settles O10: either order lists the same eight bytes, from one end or from the other. -/
theorem byteOrderView : Obligations.ByteOrderView := by
  intro v order
  refine ⟨bytesWord_wordBytes order v, wordBytes_length order v, fun k hk => ?_⟩
  have h := getElem?_wordBytes order v (i := 8 * k) (by omega)
  rw [Nat.mul_div_cancel_left k (by omega)] at h
  constructor
  · rintro rfl
    rwa [byteAt, Nat.mul_div_cancel_left k (by omega)] at h
  · rintro rfl
    rwa [byteAt, Nat.mul_div_cancel_left k (by omega)] at h

end Sys2Proof
end

section
/-!
PROOF. What a well-formed configuration guarantees of its nodes (00_scope.md R8), and where a control stands
(30_encoding.md R87).
-/

namespace Sys2Proof

/-- The first record of a node is its own node (00_scope.md R7). -/
theorem nodeFirst_of_present {cfg : Config} (hw : cfg.wf = true) {n : Nat} {r : Record}
    (hp : cfg.presentRecord n = some r) : cfg.nodeFirst n = some n := by
  obtain ⟨hf, hi, h1⟩ := presentRecord_some.mp hp
  obtain ⟨rfl, hr⟩ := find_some hf
  obtain ⟨-, hn, -⟩ := (wf_iff.mp hw).2.1 r hr
  simp only [Config.nodeFirstOk, h1, Bool.and_eq_true, Bool.not_true, Bool.false_or, beq_iff_eq] at hn
  exact nodeFirst_some.mpr ⟨r, hf, hi, hn.1⟩

/-- Settles O12: a control stands at its own position, and its mask is the one bit there. -/
theorem controlStandsAtItsMask : Obligations.ControlStandsAtItsMask := by
  intro cfg n i c hk
  cases hp : cfg.presentRecord n with
  | none => simp [Config.kind, hp] at hk
  | some r =>
    rw [kind_of_present hp] at hk
    obtain rfl := kindPresent_position hk
    have h16 := kindPresent_ctrl_lt hk
    refine ⟨rfl, fun j => ?_⟩
    rw [Ctrl.mask, BitVec.getLsbD_twoPow]
    simp only [show c.position < 64 by omega, decide_true, Bool.true_and, eq_comm]

/-- Settles O13: each record's node is that of R8 item 2, and a present register is the first of its node. -/
theorem wellFormedConfigurationNodes : Obligations.WellFormedConfigurationNodes := by
  intro cfg hw
  exact ⟨fun m hm => wf_node hw hm, fun n r hp => ⟨presentRecord_le hw hp, nodeFirst_of_present hw hp,
    fun hv => (wf_dfi hw hp hv).1, fun hv => (wf_dfi hw hp hv).2⟩⟩

end Sys2Proof
end

section
/-!
PROOF. The inputs of the interface: an access and the same access through the address map, and what is refused
(20_memory.md R62 to R66). There is no fault, so an input that cannot complete is refused.
-/

namespace Sys2Proof.Machine

variable {s : State} {b : BusAccess} {rest : List Input} {off : Offset}

/-- A result that is no next state is a refusal: there is no fault (30_encoding.md R84). -/
theorem refused_of_not_next {x : Result} (h : ∀ t, x ≠ .next t) : ∃ e, x = .refused e := by
  cases x with
  | next t => exact absurd rfl (h t)
  | fault f => cases f
  | refused e => exact ⟨e, rfl⟩

theorem exec_undecoded {e : DecodeError} {i : Instr} (h : recordOf i.offset = .error e) :
    exec i s = .refused (.undecoded e) := by
  cases i with
  | read off =>
    have h : recordOf off = .error e := h
    simp [exec, execRead, h]
  | write off v =>
    have h : recordOf off = .error e := h
    simp [exec, execWrite, h]

/-- A bus access of 8 bytes that starts at an offset of 22 bits is the access of that offset. -/
theorem busToAccess_at {cfg : Config} (hs : b.size = 8) (ha : b.addr = cfg.rasBase + off.toNat) :
    busToAccess cfg b = .ok (accessBytes b.dir off (b.data cfg.byteOrder)) := by
  have ho : busOffset cfg b = .ok off.toNat := by
    rw [busOffset, if_neg (by omega), ha, Nat.add_sub_cancel_left]
  rw [busToAccess, if_neg (by simp [hs]), ho]
  simp [Except.map]

/-- A bus access in the access format has 8 bytes and starts at an offset of 22 bits. -/
theorem busToAccess_ok {cfg : Config} {bytes : List Byte} (h : busToAccess cfg b = .ok bytes) :
    b.size = 8 ∧ ∃ off : Offset, b.addr = cfg.rasBase + off.toNat ∧
      bytes = accessBytes b.dir off (b.data cfg.byteOrder) := by
  unfold busToAccess busOffset at h
  split at h
  · cases h
  next hs =>
  split at h
  · cases h
  next ha =>
  cases h
  refine ⟨not_not.mp hs, BitVec.ofNat 22 (b.addr - cfg.rasBase), ?_, rfl⟩
  rw [BitVec.toNat_ofNat]
  omega

theorem takeInput_access {bytes : List Byte} {i : Instr} (h : decode bytes = .ok i) :
    takeInput (.access bytes) s = exec i s := by
  simp [takeInput, runAccess, h]

/-- The step of a bus access in the access format is that of the access. -/
theorem step_bus {bytes : List Byte} (hi : s.inputs = .bus b :: rest) (hb : busToAccess s.cfg b = .ok bytes) :
    step s = step { s with inputs := .access bytes :: rest } := by
  have h8 := (busToAccess_ok hb).1
  simp [step, takeNext, hi, takeInput, takeBus, h8, hb]

/-- A bus access that completes is one of 8 bytes at the offset of a record, or stands in a part of a register. -/
theorem takeInput_bus_next {t : State} (h : takeInput (.bus b) s = .next t) :
    (b.size = 8 ∧ ∃ n, n ≤ 65534 ∧ b.addr = s.cfg.rasBase + offsetOf n) ∨ ∃ p, busToPart s.cfg b = .ok p := by
  rcases takeInput_next h with ⟨bytes, ins, hi, hd, -⟩ | ⟨b', p, hi, hp, -⟩ | ⟨ev, hi, -⟩ | ⟨hi, -⟩ | ⟨hi, -⟩
  · obtain hi | ⟨b', hi, hb⟩ := hi
    · cases hi
    · cases hi
      obtain ⟨hs, off, ha, rfl⟩ := busToAccess_ok hb
      rw [decode_accessBytes] at hd
      obtain ⟨⟨n, ho⟩, -⟩ := decodeAccess_ok hd
      obtain ⟨h8, hn, hle⟩ := (offsetSelectsRecordExactly off n).mp ho
      exact .inl ⟨hs, n, hle, by unfold offsetOf; omega⟩
  · cases hi
    exact .inr ⟨p, hp⟩
  · cases hi
  · cases hi
  · cases hi

/-- A bus access that is neither is refused. -/
theorem step_bus_refused (hi : s.inputs = .bus b :: rest)
    (h8 : b.size = 8 → ∀ n, n ≤ 65534 → b.addr ≠ s.cfg.rasBase + offsetOf n)
    (hp : ∀ p, busToPart s.cfg b ≠ .ok p) : ∃ e, step s = .refused e := by
  refine refused_of_not_next fun t ht => ?_
  rw [step_cons (cfgWf_of_step ht) hi] at ht
  rcases takeInput_bus_next ht with ⟨hs, n, hn, ha⟩ | ⟨p, hq⟩
  · exact h8 hs n hn ha
  · exact hp p hq

/-- Settles O6: such an offset selects no record, for the reason that R64 gives it. -/
theorem undefinedOffsetIsRefused : Obligations.UndefinedOffsetIsRefused := by
  intro off v s
  refine ⟨fun h => ?_, fun h => ?_⟩
  · have ho : recordOf off = .error .undefinedOffset := by
      rcases recordOf_cases off with ⟨-, e⟩ | ⟨h8, -, -⟩ | ⟨h8, -, -⟩
      · exact e
      · exact absurd h8 h
      · exact absurd h8 h
    exact ⟨exec_undecoded ho, exec_undecoded ho⟩
  · have ho : recordOf off = .error .indexOutOfRange := by
      rcases recordOf_cases off with ⟨h8, -⟩ | ⟨-, -, e⟩ | ⟨-, hn, -⟩
      · omega
      · exact e
      · omega
    exact ⟨exec_undecoded ho, exec_undecoded ho⟩

/-- Settles O7: the step is that of the input, which is that of the decoded operation. -/
theorem stepRunsDecodedAccess : Obligations.StepRunsDecodedAccess := by
  intro s bytes rest i hw hi hd
  rw [step_cons hw hi, takeInput_access hd]

/-- Settles O8: the bytes of the write are the word, in the order of the configuration. -/
theorem busAccessIsInterfaceAccess : Obligations.BusAccessIsInterfaceAccess := by
  intro s rest off v
  refine ⟨fun hi => ?_, fun hi => ?_⟩
  · exact step_bus hi (busToAccess_at rfl rfl)
  · rw [step_bus hi (busToAccess_at (wordBytes_length _ v) rfl)]
    simp [BusAccess.dir, BusAccess.data]

/-- Settles O9: the access is in neither of the two forms that complete. -/
theorem otherBusAccessesAreRefused : Obligations.OtherBusAccessesAreRefused := by
  intro s b rest hi h
  refine step_bus_refused hi (fun h8 n hn => ?_) (fun p hp => ?_)
  · rcases h with ⟨hs, -⟩ | ⟨-, ha⟩
    · exact absurd h8 hs
    · exact ha n hn
  · obtain ⟨h8, hadm, -⟩ := busToPart_ok hp
    rcases h with ⟨-, hn⟩ | ⟨hs, -⟩
    · exact hn hadm
    · exact h8 hs

/-- Settles O59: the access is no part of a register, and not of 8 bytes. -/
theorem accessOutsidePartsIsRefused : Obligations.AccessOutsidePartsIsRefused := by
  intro s b rest hi hs h
  refine step_bus_refused hi (fun h8 => absurd h8 hs) (fun p hp => ?_)
  obtain ⟨-, -, hn, hsize, hf, ha⟩ := busToPart_ok hp
  exact h p hn hsize hf ha

/-- Settles O14: the condition is checked before any input is looked at. -/
theorem illFormedConfigurationIsRefused : Obligations.IllFormedConfigurationIsRefused := by
  intro s hw
  simp [step, takeNext, hw]

/-- Settles O26: a preserving reset is only taken from the queue, and an empty queue has nothing to take. -/
theorem idleAndPreservingStepsChangeNothing : Obligations.IdleAndPreservingStepsChangeNothing := by
  intro s rest hw
  refine ⟨fun hi => step_cons hw hi, fun hi => ?_⟩
  simp [step, takeNext, hw, hi]

end Sys2Proof.Machine
end

section
/-!
PROOF. What every step keeps (10_state.md, sections 1 and 4). The invariant speaks of the parameters, the registers and
the bookkeeping alone, so it is kept by each of the state's operations on these: a register write, a bookkeeping write,
the Cold reset.
-/

namespace Sys2Proof.Machine

variable {s t : State} {n i : Nat} {r : Record} {v : Word} {p : Part}

/-- The invariant does not speak of the draws, the inputs and the outputs. -/
theorem State.Inv.congr (h : s.Inv) (hcfg : t.cfg = s.cfg) (hctlr : t.ctlr = s.ctlr)
    (hlast : t.lastRead = s.lastRead) : t.Inv := by
  have hc (m) : t.ctlrOf m = s.ctlrOf m := by rw [State.ctlrOf, hctlr]; rfl
  have hl (m) : t.lastReadOf m = s.lastReadOf m := by rw [State.lastReadOf, hlast]; rfl
  constructor
  case cfgWf => rw [hcfg]; exact h.cfgWf
  case registers => rw [hcfg, hctlr]; exact h.registers
  case hardwiredZero => simp only [hcfg, hc]; exact h.hardwiredZero
  case lastReadForm => rw [hlast]; exact h.lastReadForm
  case lastReadHardwired => simp only [hcfg, hl]; exact h.lastReadHardwired
  case lastReadAbsent => simp only [hcfg, hl]; exact h.lastReadAbsent

/-- A table whose indices are those of the present records is in the canonical form. -/
theorem wfFrom_of_presentIndices {lo : Nat} {rs : List Record} {tab : List (Nat × Word)} (h : indicesRise lo rs = true)
    (ht : tab.map Prod.fst = (rs.filter Record.present).map Record.n) : Table.wfFrom lo tab = true := by
  induction rs generalizing lo tab with
  | nil =>
    obtain rfl : tab = [] := by simpa using ht
    rfl
  | cons q rs ih =>
    simp only [indicesRise, Bool.and_eq_true, decide_eq_true_eq] at h
    obtain ⟨⟨hlo, hmax⟩, hrise⟩ := h
    by_cases hq : q.present = true
    · rw [List.filter_cons_of_pos hq, List.map_cons] at ht
      obtain ⟨⟨k, x⟩, tab', rfl, rfl, ht'⟩ := List.map_eq_cons_iff.mp ht
      simp only [Table.wfFrom, Bool.and_eq_true, decide_eq_true_eq]
      exact ⟨⟨hlo, hmax⟩, ih hrise ht'⟩
    · rw [List.filter_cons_of_neg hq] at ht
      exact Table.wfFrom_mono (by omega) (ih hrise ht)

theorem State.Inv.ctlrForm (h : s.Inv) : Table.wf s.ctlr = true :=
  wfFrom_of_presentIndices (wf_iff.mp h.cfgWf).1 h.registers

/-- A write of a present register that leaves 0 in the Hardwired bits. -/
theorem State.Inv.setCtlr (h : s.Inv) (hp : s.cfg.presentRecord n = some r)
    (hv : ∀ i, hardwired s.cfg.rasv2 r i = true → v.getLsbD i = false) : (s.setCtlr n v).Inv := by
  constructor
  case cfgWf => exact h.cfgWf
  case registers =>
    have hn : n ∈ s.ctlr.map Prod.fst := by
      rw [h.registers]
      exact (mem_presentIndices h.cfgWf).mpr ⟨r, hp⟩
    rw [setCtlr_ctlr, Table.map_fst_put v h.ctlrForm hn]
    exact h.registers
  case hardwiredZero =>
    intro m q i hq hi
    by_cases hm : m = n
    · subst hm
      obtain rfl : r = q := Option.some.inj (hp.symm.trans hq)
      rw [setCtlr_ctlrOf_same]
      exact hv i hi
    · rw [setCtlr_ctlrOf_other _ _ hm]
      exact h.hardwiredZero m q i hq hi
  case lastReadForm => exact h.lastReadForm
  case lastReadHardwired => exact h.lastReadHardwired
  case lastReadAbsent => exact h.lastReadAbsent

/-- The bookkeeping takes a value with 0 in the Hardwired bits of a present register, and 0 for an absent one. -/
theorem State.Inv.lastRead (h : s.Inv) (hcfg : t.cfg = s.cfg) (hctlr : t.ctlr = s.ctlr)
    (hlast : t.lastRead = Table.put s.lastRead n v) (hn : n ≤ maxIndex)
    (hv : ∀ r i, s.cfg.presentRecord n = some r → hardwired s.cfg.rasv2 r i = true → v.getLsbD i = false)
    (h0 : s.cfg.present n = false → v = 0) : t.Inv := by
  have hc (m) : t.ctlrOf m = s.ctlrOf m := by rw [State.ctlrOf, hctlr]; rfl
  have hsame : t.lastReadOf n = some v := by rw [State.lastReadOf, hlast, Table.get_put_same]
  have hother {m} (hm : m ≠ n) : t.lastReadOf m = s.lastReadOf m := by
    rw [State.lastReadOf, hlast, Table.get_put_other _ _ hm]; rfl
  constructor
  case cfgWf => rw [hcfg]; exact h.cfgWf
  case registers => rw [hcfg, hctlr]; exact h.registers
  case hardwiredZero => simp only [hcfg, hc]; exact h.hardwiredZero
  case lastReadForm => rw [hlast]; exact Table.put_wf v hn h.lastReadForm
  case lastReadHardwired =>
    intro m q i w hq hw hi
    rw [hcfg] at hq hi
    by_cases hm : m = n
    · subst hm
      obtain rfl : v = w := Option.some.inj (hsame.symm.trans hw)
      exact hv q i hq hi
    · exact h.lastReadHardwired m q i w hq (hother hm ▸ hw) hi
  case lastReadAbsent =>
    intro m w hq hw
    rw [hcfg] at hq
    by_cases hm : m = n
    · subst hm
      obtain rfl : v = w := Option.some.inj (hsame.symm.trans hw)
      exact h0 hq
    · exact h.lastReadAbsent m w hq (hother hm ▸ hw)

/-- The reset words meet the invariant, with an empty bookkeeping. -/
theorem inv_of_reset {k : Nat} (hw : s.cfg.wf = true) (hctlr : s.ctlr = s.cfg.resetRegisters k)
    (hlast : s.lastRead = []) : s.Inv := by
  have hl (m) : s.lastReadOf m = none := by rw [State.lastReadOf, hlast]; rfl
  constructor
  case cfgWf => exact hw
  case registers => rw [hctlr, map_fst_resetRegisters]
  case hardwiredZero =>
    intro n r i hp hi
    rw [State.ctlrOf, hctlr, get_resetRegisters hp, Option.getD_some]
    exact resetWord_hardwired hi
  case lastReadForm => rw [hlast]; rfl
  case lastReadHardwired => intro n r i v _ hv; simp [hl] at hv
  case lastReadAbsent => intro n v _ hv; simp [hl] at hv

/-- What the bookkeeping holds of a present register, or 0, has 0 in the Hardwired bits. -/
theorem State.Inv.getD_hardwired (h : s.Inv) (hp : s.cfg.presentRecord n = some r)
    (hi : hardwired s.cfg.rasv2 r i = true) : ((s.lastReadOf n).getD 0).getLsbD i = false := by
  cases hl : s.lastReadOf n with
  | none => simp
  | some w => exact h.lastReadHardwired n r i w hp hl hi

/-- What the bookkeeping holds of an absent register is 0. -/
theorem State.Inv.getD_absent (h : s.Inv) (hp : s.cfg.present n = false) : (s.lastReadOf n).getD 0 = 0 := by
  cases hl : s.lastReadOf n with
  | none => rfl
  | some w => exact h.lastReadAbsent n w hp hl

/-- A result with 0 in the Hardwired bits of a present register, and 0 for an absent one, is answered. -/
theorem State.Inv.answerRead (h : s.Inv) (hn : n ≤ maxIndex)
    (hv : ∀ r i, s.cfg.presentRecord n = some r → hardwired s.cfg.rasv2 r i = true → v.getLsbD i = false)
    (h0 : s.cfg.present n = false → v = 0) : (s.answerRead n v).Inv :=
  h.lastRead rfl rfl rfl hn hv h0

/-- The same for a part: the bookkeeping merges the result with what it held. -/
theorem State.Inv.answerPart (h : s.Inv) (hn : p.n ≤ maxIndex)
    (hv : ∀ r i, s.cfg.presentRecord p.n = some r → hardwired s.cfg.rasv2 r i = true → v.getLsbD i = false)
    (h0 : s.cfg.present p.n = false → v = 0) : (s.answerPart p v).Inv := by
  refine h.lastRead rfl rfl (answerPart_lastRead s v p) hn (fun r i hp hi => ?_) (fun hp => ?_)
  · rw [getLsbD_mergeWord, hv r i hp hi, h.getD_hardwired hp hi, ite_self]
  · rw [h0 hp, h.getD_absent hp, mergeWord_zero]

theorem State.Inv.afterDraw (h : s.Inv) : s.afterDraw.Inv := h.congr rfl rfl rfl

theorem not_present_of_some (hp : s.cfg.presentRecord n = some r) : ¬ s.cfg.present n = false := by
  simp [present_false_iff, hp]

/-- A read returns 0 in each Hardwired bit, whatever record it is of. -/
theorem readWord_hardwired_of_present {c d : Word} (hp : s.cfg.presentRecord n = some r) (q : Record) (i : Nat)
    (hq : s.cfg.presentRecord n = some q) (hi : hardwired s.cfg.rasv2 q i = true) :
    (readWord s.cfg.rasv2 r c d).getLsbD i = false := by
  obtain rfl : r = q := Option.some.inj (hp.symm.trans hq)
  exact readWord_hardwired hi

theorem State.Inv.exec {ins : Instr} (h : s.Inv) (he : exec ins s = .next t) : t.Inv := by
  cases ins with
  | read off =>
    obtain ⟨n, ho, ⟨hp, rfl⟩ | ⟨r, hp, rfl⟩⟩ := execRead_next he
    · exact h.answerRead (recordOf_le ho) (fun _ _ _ _ => BitVec.getLsbD_zero) (fun _ => rfl)
    · exact h.afterDraw.answerRead (recordOf_le ho) (readWord_hardwired_of_present hp)
        (fun ha => absurd ha (not_present_of_some hp))
  | write off v =>
    obtain ⟨n, ho, ⟨hp, rfl⟩ | ⟨r, hp, -, rfl⟩⟩ := execWrite_next he
    · exact h
    · refine h.afterDraw.setCtlr hp fun i hi => ?_
      exact (writeWord_hardwired hi).trans (h.hardwiredZero n r i hp hi)

theorem State.Inv.takePart {b : BusAccess} (h : s.Inv) (hn : p.n ≤ maxIndex) (he : takePart p b s = .next t) :
    t.Inv := by
  cases b with
  | read a k =>
    obtain ⟨hp, rfl⟩ | ⟨r, hp, rfl⟩ := readPart_next he
    · exact h.answerPart hn (fun _ _ _ _ => BitVec.getLsbD_zero) (fun _ => rfl)
    · exact h.afterDraw.answerPart hn (readWord_hardwired_of_present hp)
        (fun ha => absurd ha (not_present_of_some hp))
  | write a bs =>
    obtain ⟨hp, rfl⟩ | ⟨r, hp, -, rfl⟩ := writePart_next he
    · exact h
    · refine h.afterDraw.setCtlr hp fun i hi => ?_
      have h0 := h.hardwiredZero p.n r i hp hi
      rw [getLsbD_mergeWord, writeWord_hardwired (v2 := s.cfg.rasv2) hi, h0, ite_self]

theorem State.Inv.takeInput {i : Input} (h : s.Inv) (he : takeInput i s = .next t) : t.Inv := by
  rcases takeInput_next he with ⟨bytes, ins, -, -, he⟩ | ⟨b, p, -, hp, he⟩ | ⟨ev, -, he⟩ | ⟨-, rfl⟩ | ⟨-, rfl⟩
  · exact h.exec he
  · obtain ⟨-, -, hn, -⟩ := busToPart_ok hp
    exact h.takePart hn he
  · obtain ⟨n, r, -, -, rfl⟩ := takeEvent_next he
    exact h.congr rfl rfl rfl
  · exact inv_of_reset h.cfgWf (coldReset_ctlr s) rfl
  · exact h

/-- Settles O44: the input that the step takes leaves the queue, and each input keeps the invariant. -/
theorem stepKeepsInvariant : Obligations.StepKeepsInvariant := by
  intro s t h hs
  rcases step_next hs with ⟨-, rfl⟩ | ⟨i, rest, -, he⟩
  · exact h
  · exact State.Inv.takeInput (s := { s with inputs := rest }) (h.congr rfl rfl rfl) he

/-- Settles O45: the registers right after reset are the reset words, and nothing was read yet. -/
theorem resetMeetsInvariant : Obligations.ResetMeetsInvariant :=
  ⟨fun _ hw => inv_of_reset hw rfl rfl, inv_of_reset (k := 0) (by decide) rfl rfl⟩

/-- Settles O25: the registers are the reset words, and the bookkeeping is empty. -/
theorem coldResetStep : Obligations.ColdResetStep := by
  intro s rest hw hi
  refine ⟨_, step_reset hw hi, rfl, rfl, rfl, fun _ => rfl, map_fst_resetRegisters _ _, fun n r hp => ?_⟩
  rw [coldReset_ctlrOf (s := { s with inputs := rest }) hp]
  refine ⟨fun i => resetWord_hardwired, fun hed h1 i c hi hk => ?_⟩
  rw [kind_of_present hp] at hk
  exact resetWord_other hk hi hed h1

end Sys2Proof.Machine
end

section
/-!
PROOF. ERRCTLR.READ and ERRCTLR.WRITE, one access after another (40_register_access.md R100 to R104), and the words of
SET, CLR and UPDATE (30_encoding.md R88).
-/

namespace Sys2Proof.Machine

variable {s t : State} {off : Offset} {n m i : Nat} {r : Record} {v mask : Word} {ins : Instr}

/-- What an operation leaves alone, and what it gives out. -/
theorem exec_frame (h : exec ins s = .next t) :
    t.cfg = s.cfg ∧ t.inputs = s.inputs ∧ s.draws ≤ t.draws ∧
      (t.outputs = s.outputs ∨ ∃ n v, t.outputs = .readData n v :: s.outputs) := by
  cases ins with
  | read off => obtain ⟨n, -, ⟨-, rfl⟩ | ⟨r, -, rfl⟩⟩ := execRead_next h <;> simp
  | write off v => obtain ⟨n, -, ⟨-, rfl⟩ | ⟨r, -, -, rfl⟩⟩ := execWrite_next h <;> simp

/-- An operation changes nothing of a record that its offset does not select. -/
theorem exec_other (h : exec ins s = .next t) (hm : recordOf ins.offset ≠ .ok m) :
    t.ctlrOf m = s.ctlrOf m ∧ t.lastReadOf m = s.lastReadOf m := by
  cases ins with
  | read off =>
    obtain ⟨n, ho, h⟩ := execRead_next h
    have hmn : m ≠ n := fun e => hm (e ▸ ho)
    obtain ⟨-, rfl⟩ | ⟨r, -, rfl⟩ := h
    · exact ⟨rfl, answerRead_lastReadOf_other _ _ hmn⟩
    · exact ⟨rfl, answerRead_lastReadOf_other _ _ hmn⟩
  | write off v =>
    obtain ⟨n, ho, h⟩ := execWrite_next h
    have hmn : m ≠ n := fun e => hm (e ▸ ho)
    obtain ⟨-, rfl⟩ | ⟨r, -, -, rfl⟩ := h
    · exact ⟨rfl, rfl⟩
    · exact ⟨setCtlr_ctlrOf_other _ _ hmn, rfl⟩

/-- A read changes no register. -/
theorem execRead_ctlr (h : execRead off s = .next t) : t.ctlr = s.ctlr := by
  obtain ⟨n, -, ⟨-, rfl⟩ | ⟨r, -, rfl⟩⟩ := execRead_next h <;> rfl

/-- A write gives nothing out, and is no read. -/
theorem execWrite_outputs (h : execWrite off v s = .next t) : t.outputs = s.outputs ∧ t.lastRead = s.lastRead := by
  obtain ⟨n, -, ⟨-, rfl⟩ | ⟨r, -, -, rfl⟩⟩ := execWrite_next h <;> exact ⟨rfl, rfl⟩

/-- Settles O15: the result is the read word, bit by bit. -/
theorem readOfPresentRegister : Obligations.ReadOfPresentRegister := by
  intro s off n r ho hp
  refine ⟨_, _, execRead_present ho hp, rfl, answerRead_lastReadOf_same _ _ _, fun i hi => ?_, rfl, rfl, rfl, rfl,
    fun m hm => answerRead_lastReadOf_other _ _ hm⟩
  rw [kind_of_present hp]
  refine ⟨fun c hk => readWord_ctrl hk, fun hk hs => ?_, fun hk hs => ?_, fun hk => ?_⟩
  · rw [readWord_res0 hk, hs, Bool.false_and]
  · rw [readWord_res0 hk, hs, Bool.true_and]
  · rw [readWord_impdef hk, decide_eq_true hi, Bool.true_and]

/-- Settles O16: the new value is the written word, bit by bit. -/
theorem writeOfPresentRegister : Obligations.WriteOfPresentRegister := by
  intro s off v n r ho hp hw
  refine ⟨_, execWrite_present ho hp hw, fun i _ => ?_, fun m hm => setCtlr_ctlrOf_other _ _ hm, rfl, rfl, rfl, rfl,
    rfl⟩
  rw [kind_of_present hp, setCtlr_ctlrOf_same]
  refine ⟨fun c hk => writeWord_ctrl hk, fun hk hs => ?_, fun hk hs => ?_⟩
  · simp [writeWord_res0 hk, hs]
  · simp [writeWord_res0 hk, hs]

/-- A write of a present register is refused by the policy exactly outside it. -/
theorem execWrite_refused_iff (ho : recordOf off = .ok n) (hp : s.cfg.presentRecord n = some r) :
    execWrite off v s = .refused .writePolicy ↔ ¬ WritePolicy (s.lastReadOf n) v := by
  refine ⟨fun h hw => ?_, execWrite_refused ho hp⟩
  rw [execWrite_present ho hp hw] at h
  cases h

/-- Settles O17: within the policy the write completes. -/
theorem writeIsRefusedExactlyOutsidePolicy : Obligations.WriteIsRefusedExactlyOutsidePolicy :=
  fun _ _ _ _ _ ho hp => execWrite_refused_iff ho hp

/-- Settles O18: the read answers 0, the write nothing. -/
theorem absentRegisterAccess : Obligations.AbsentRegisterAccess := by
  intro s off v n ho hp
  have hp := present_false_iff.mp hp
  exact ⟨execWrite_absent ho hp, _, execRead_absent ho hp, rfl, answerRead_lastReadOf_same _ _ _,
    fun m hm => answerRead_lastReadOf_other _ _ hm, rfl, rfl, rfl, rfl⟩

/-- A completed read of a present register. -/
theorem execRead_next_present (ho : recordOf off = .ok n) (hp : s.cfg.presentRecord n = some r)
    (h : execRead off s = .next t) :
    t = s.afterDraw.answerRead n (readWord s.cfg.rasv2 r (s.ctlrOf n) (s.drawn n)) :=
  Host.Outcome.next.inj (h.symm.trans (execRead_present ho hp))

/-- A completed write of a present register. -/
theorem execWrite_next_present (ho : recordOf off = .ok n) (hp : s.cfg.presentRecord n = some r)
    (h : execWrite off v s = .next t) :
    t = s.afterDraw.setCtlr n (writeWord s.cfg.rasv2 r (s.ctlrOf n) v (s.drawn n)) := by
  obtain ⟨n', ho', h⟩ := execWrite_next h
  obtain rfl : n = n' := Except.ok.inj (ho.symm.trans ho')
  obtain ⟨hp', -⟩ | ⟨r', hp', -, h⟩ := h
  · simp [hp] at hp'
  obtain rfl : r = r' := Option.some.inj (hp.symm.trans hp')
  exact h

/-- Settles O19: a read returns what the write left, and the write left what it wrote. -/
theorem readAfterWrite : Obligations.ReadAfterWrite := by
  intro s t u off v n r ho hp hw hcfg hc
  obtain rfl := execWrite_next_present ho hp hw
  rw [setCtlr_ctlrOf_same] at hc
  have hcfg : u.cfg = s.cfg := hcfg
  refine ⟨_, _, execRead_present ho (hcfg ▸ hp), rfl, fun i _ => ?_⟩
  rw [kind_of_present hp, hc, hcfg]
  refine ⟨fun c hk => ?_, fun hk => ?_⟩
  · rw [readWord_ctrl hk, writeWord_ctrl hk]
  · rw [readWord_res0 hk, writeWord_res0 hk]
    cases r.res0Stored.getLsbD i <;> rfl

/-- Settles O20: each part is one of the frame rules of an operation. -/
theorem accessIsLocal : Obligations.AccessIsLocal := by
  intro s t i h
  obtain ⟨hcfg, hin, -⟩ := exec_frame h
  refine ⟨hcfg, hin, fun m hm => exec_other h hm, ?_, ?_⟩
  · rintro off rfl
    exact execRead_ctlr h
  · rintro off v rfl
    exact execWrite_outputs h

theorem getLsbD_setWord : (setWord v mask).getLsbD i = (v.getLsbD i || mask.getLsbD i) :=
  BitVec.getLsbD_or

theorem getLsbD_clrWord : (clrWord v mask).getLsbD i = (v.getLsbD i && !mask.getLsbD i) := by
  by_cases hi : i < 64
  · simp [clrWord, hi]
  · simp [clrWord, hi, BitVec.getLsbD_of_ge v i (by omega)]

/-- UPDATE writes `val` over what was read, where the mask has a 1. -/
theorem updateWord_eq_mergeWord (v mask val : Word) : updateWord v mask val = mergeWord mask v val := rfl

/-- A word of controls alone has 0 in every IMPLEMENTATION DEFINED bit. -/
theorem onlyControls_impdef {v2 : Bool} {fr : FR} (h : onlyControls v2 fr mask = true)
    (hi : i = 1 ∨ (32 ≤ i ∧ i < 64)) : mask.getLsbD i = false := by
  have hk : kindPresent v2 fr i = .impdef := (kindPresent_impdef v2 fr i).mpr (by simpa [isImpdefBit] using hi)
  have hb := List.all_eq_true.mp h i (List.mem_range.mpr (by omega))
  simpa [hk] using hb

/-- A word that leaves the IMPLEMENTATION DEFINED bits as they were read is within the policy, and a write of it gives
each control its new value. -/
theorem execWrite_preserving {w : Word} (ho : recordOf off = .ok n) (hp : t.cfg.presentRecord n = some r)
    (hl : t.lastReadOf n = some v)
    (hw : ∀ i, (i = 1 ∨ (32 ≤ i ∧ i < 64)) → w.getLsbD i = v.getLsbD i) :
    ∃ u, execWrite off w t = .next u ∧
      ∀ i c, kindPresent t.cfg.rasv2 r.fr i = .ctrl c → (u.ctlrOf n).getLsbD i = w.getLsbD i := by
  refine ⟨_, execWrite_present ho hp fun i hi => .inr ⟨v, hl, hw i hi⟩, fun i c hk => ?_⟩
  rw [setCtlr_ctlrOf_same, writeWord_ctrl hk]

/-- Settles O22: the three words differ from what was read in controls alone. -/
theorem readModifyWriteIsAdmitted : Obligations.ReadModifyWriteIsAdmitted := by
  intro s t off n r mask val ho hp hmask _ hr
  have ht := execRead_next_present ho hp hr
  generalize hv : readWord s.cfg.rasv2 r (s.ctlrOf n) (s.drawn n) = v at ht
  have hcfg : t.cfg = s.cfg := by rw [ht]; rfl
  have hl : t.lastReadOf n = some v := by rw [ht, answerRead_lastReadOf_same]
  have hp' := hcfg ▸ hp
  have hm := fun i hi => onlyControls_impdef (i := i) hmask hi
  obtain ⟨set, hset, hset'⟩ := execWrite_preserving ho hp' hl (w := setWord v mask)
    fun i hi => by rw [getLsbD_setWord, hm i hi, Bool.or_false]
  obtain ⟨clr, hclr, hclr'⟩ := execWrite_preserving ho hp' hl (w := clrWord v mask)
    fun i hi => by rw [getLsbD_clrWord, hm i hi, Bool.not_false, Bool.and_true]
  obtain ⟨upd, hupd, hupd'⟩ := execWrite_preserving ho hp' hl (w := updateWord v mask val)
    fun i hi => by rw [updateWord_eq_mergeWord, getLsbD_mergeWord, hm i hi, if_neg Bool.false_ne_true]
  refine ⟨_, set, clr, upd, hl, hset, hclr, hupd, fun i c hk => ?_⟩
  rw [kind_of_present hp] at hk
  have hk' := hcfg ▸ hk
  have hread : v.getLsbD i = (s.ctlrOf n).getLsbD i := hv ▸ readWord_ctrl hk
  refine ⟨?_, ?_, ?_⟩
  · rw [hset' i c hk', getLsbD_setWord, hread]
  · rw [hclr' i c hk', getLsbD_clrWord, hread]
  · rw [hupd' i c hk', updateWord_eq_mergeWord, getLsbD_mergeWord, hread]

/-- Settles O23: in a control and in a Stored bit the second write wins, in a Hardwired bit neither writes. -/
theorem earlierWriteIsLost : Obligations.EarlierWriteIsLost := by
  intro s t u off v w n r ho hp hv hw i hi
  obtain rfl := execWrite_next_present ho hp hv
  obtain rfl := execWrite_next_present (s := s.afterDraw.setCtlr _ _) ho hp hw
  rw [kind_of_present hp] at hi ⊢
  simp only [setCtlr_ctlrOf_same, setCtlr_cfg, afterDraw_cfg]
  cases hk : kindPresent s.cfg.rasv2 r.fr i with
  | ctrl c =>
    have h16 := kindPresent_ctrl_lt hk
    rw [writeWord_ctrl hk, if_neg (by simp), decide_eq_true (by omega), Bool.and_true]
  | res0 =>
    rw [writeWord_res0 hk, writeWord_res0 hk]
    cases hs : r.res0Stored.getLsbD i with
    | false => simp
    | true =>
      have h64 : i < 64 := by
        by_contra hge
        rw [BitVec.getLsbD_of_ge _ _ (by omega)] at hs
        cases hs
      simp [h64]
  | impdef => exact absurd hk hi

end Sys2Proof.Machine
end

section
/-!
PROOF. What any input leaves alone and gives out, and what holds through any number of steps whose inputs leave a
register alone (10_state.md, section 4; 40_register_access.md, section 2; 70_reset_and_hazards.md, section 3).
-/

namespace Sys2Proof.Machine

variable {s t u : State} {i : Input} {n k : Nat} {r : Record} {p : Part} {b : BusAccess}

/-- A read of a part changes no register. -/
theorem takePart_read_ctlr (h : takePart p b s = .next t) (hd : b.dir = .read) : t.ctlr = s.ctlr := by
  cases b with
  | read a k => rcases readPart_next h with ⟨-, rfl⟩ | ⟨r, -, rfl⟩ <;> rfl
  | write a bs => cases hd

/-- An input changes no parameter and, taken from the queue, no other input. -/
theorem takeInput_frame (h : takeInput i s = .next t) : t.cfg = s.cfg ∧ t.inputs = s.inputs ∧ s.draws ≤ t.draws := by
  rcases takeInput_next h with ⟨_, ins, -, -, he⟩ | ⟨b, p, -, -, he⟩ | ⟨ev, -, he⟩ | ⟨-, rfl⟩ | ⟨-, rfl⟩
  · obtain ⟨hcfg, hin, hd, -⟩ := exec_frame he
    exact ⟨hcfg, hin, hd⟩
  · obtain ⟨hcfg, hin, hd, -⟩ := takePart_frame he
    exact ⟨hcfg, hin, hd⟩
  · obtain ⟨n, r, -, -, rfl⟩ := takeEvent_next he
    exact ⟨rfl, rfl, Nat.le_succ _⟩
  · exact ⟨rfl, rfl, Nat.le_succ _⟩
  · exact ⟨rfl, rfl, le_rfl⟩

/-- Everything an input can give out. -/
theorem takeInput_outputs (h : takeInput i s = .next t) :
    t.outputs = s.outputs ∨ (∃ n v, t.outputs = .readData n v :: s.outputs) ∨
    (∃ n k bs, t.outputs = .partData n k bs :: s.outputs) ∨
    ∃ ev n r, i = .event ev ∧ s.cfg.presentRecord n = some r ∧
      t.outputs = .event (eventReport s.cfg n r (s.ctlrOf n) ev (s.drawn n)) :: s.outputs := by
  rcases takeInput_next h with ⟨_, ins, -, -, he⟩ | ⟨b, p, -, -, he⟩ | ⟨ev, hi, he⟩ | ⟨-, rfl⟩ | ⟨-, rfl⟩
  · obtain ⟨-, -, -, ho | ho⟩ := exec_frame he
    · exact .inl ho
    · exact .inr (.inl ho)
  · obtain ⟨-, -, -, ho | ⟨bs, ho⟩⟩ := takePart_frame he
    · exact .inl ho
    · exact .inr (.inr (.inl ⟨_, _, bs, ho⟩))
  · obtain ⟨n, r, -, hp, rfl⟩ := takeEvent_next he
    exact .inr (.inr (.inr ⟨ev, n, r, hi, hp, rfl⟩))
  · exact .inl rfl
  · exact .inl rfl

/-- An input that is no reset and no write to a register leaves it as it was. -/
theorem takeInput_ctlrOf (h : takeInput i s = .next t) (hl : LeavesRegister s.cfg n i) : t.ctlrOf n = s.ctlrOf n := by
  obtain ⟨hreset, haccess, hpart⟩ := hl
  rcases takeInput_next h with ⟨bytes, ins, hi, hd, he⟩ | ⟨b, p, hi, hp, he⟩ | ⟨ev, -, he⟩ | ⟨hi, -⟩ | ⟨-, rfl⟩
  · cases ins with
    | read off => rw [State.ctlrOf, execRead_ctlr he]; rfl
    | write off v => exact (exec_other he (haccess bytes off v hi hd)).1
  · cases hd : b.dir with
    | read => rw [State.ctlrOf, takePart_read_ctlr he hd]; rfl
    | write => exact (takePart_other he (hpart b p hi hd hp).symm).1
  · obtain ⟨m, r, -, -, rfl⟩ := takeEvent_next he
    rfl
  · exact absurd hi hreset
  · rfl

/-- A step takes the first of the inputs, and leaves a register alone when that input does. -/
theorem step_frame (h : step s = .next t) :
    t.cfg = s.cfg ∧ t.inputs = s.inputs.tail ∧ s.draws ≤ t.draws ∧
      ((∀ i rest, s.inputs = i :: rest → LeavesRegister s.cfg n i) → t.ctlrOf n = s.ctlrOf n) := by
  rcases step_next h with ⟨hi, rfl⟩ | ⟨i, rest, hi, he⟩
  · exact ⟨rfl, by rw [hi]; rfl, le_rfl, fun _ => rfl⟩
  · obtain ⟨hcfg, hin, hd⟩ := takeInput_frame he
    exact ⟨hcfg, by rw [hin, hi]; rfl, hd,
      fun hl => takeInput_ctlrOf (s := { s with inputs := rest }) he (hl i rest hi)⟩

/-- Everything a step can give out. -/
theorem step_outputs (h : step s = .next t) :
    t.outputs = s.outputs ∨ (∃ n v, t.outputs = .readData n v :: s.outputs) ∨
    (∃ n k bs, t.outputs = .partData n k bs :: s.outputs) ∨
    ∃ ev rest n r, s.inputs = .event ev :: rest ∧ s.cfg.presentRecord n = some r ∧
      t.outputs = .event (eventReport s.cfg n r (s.ctlrOf n) ev (s.drawn n)) :: s.outputs := by
  rcases step_next h with ⟨-, rfl⟩ | ⟨i, rest, hi, he⟩
  · exact .inl rfl
  · rcases takeInput_outputs he with ho | ho | ho | ⟨ev, n, r, rfl, hp, ho⟩
    · exact .inl ho
    · exact .inr (.inl ho)
    · exact .inr (.inr (.inl ho))
    · exact .inr (.inr (.inr ⟨ev, rest, n, r, hi, hp, ho⟩))

/-- Settles O48: the frame of a step. -/
theorem stepKeepsParameters : Obligations.StepKeepsParameters := by
  intro s t h
  obtain ⟨hcfg, hin, hd, -⟩ := step_frame (n := 0) h
  exact ⟨hcfg, hin, hd⟩

/-- Settles O46: an input that leaves the register alone does not change it. -/
theorem onlyWriteOrResetChangesRegister : Obligations.OnlyWriteOrResetChangesRegister := by
  intro s t n h hne
  obtain ⟨-, -, -, hc⟩ := step_frame (n := n) h
  by_contra hno
  refine hne (hc fun i rest hi => ?_)
  by_contra hl
  exact hno ⟨i, rest, hi, hl⟩

/-- Settles O47: a report that a step gives out names the record of the event it took. -/
theorem onlyEventsGenerateSignals : Obligations.OnlyEventsGenerateSignals := by
  intro s t h
  rcases step_outputs h with ho | ho | ho | ⟨ev, rest, n, r, hi, -, ho⟩
  · exact .inl ho
  · exact .inr (.inl ho)
  · exact .inr (.inr (.inl ho))
  · exact .inr (.inr (.inr ⟨ev, rest, _, hi, ho, rfl⟩))

theorem runSteps_succ (h : runSteps (k + 1) s = .next t) : ∃ u, step s = .next u ∧ runSteps k u = .next t := by
  rw [runSteps] at h
  split at h
  · next u hu => exact ⟨u, hu, h⟩
  · cases h
  · cases h

/-- One step of a run whose inputs leave a register alone: the register and the parameters stay, and so do the other
inputs of the run. -/
theorem step_quiet (hq : ∀ i ∈ s.inputs.take (k + 1), LeavesRegister s.cfg n i) (h : step s = .next u) :
    u.ctlrOf n = s.ctlrOf n ∧ u.cfg = s.cfg ∧ u.inputs = s.inputs.tail ∧
      ∀ i ∈ u.inputs.take k, LeavesRegister u.cfg n i := by
  obtain ⟨hcfg, hin, -, hc⟩ := step_frame (n := n) h
  refine ⟨hc fun i rest hi => hq i ?_, hcfg, hin, ?_⟩
  · rw [hi, List.take_succ_cons]
    exact List.mem_cons_self
  · rw [hcfg, hin]
    intro i hi
    refine hq i ?_
    cases hs : s.inputs with
    | nil => simp [hs] at hi
    | cons j rest =>
      rw [hs, List.tail_cons] at hi
      rw [List.take_succ_cons]
      exact List.mem_cons_of_mem j hi

/-- Settles O52, by induction on the number of steps. -/
theorem registerHeldThroughQuietSteps : Obligations.RegisterHeldThroughQuietSteps := by
  intro k
  induction k with
  | zero =>
    rintro s t n - ⟨⟩
    exact ⟨rfl, rfl, rfl⟩
  | succ k ih =>
    intro s t n hq hr
    obtain ⟨u, hu, hr⟩ := runSteps_succ hr
    obtain ⟨hc, hcfg, hin, hq'⟩ := step_quiet hq hu
    obtain ⟨hc', hcfg', hin'⟩ := ih u t n hq' hr
    exact ⟨hc'.trans hc, hcfg'.trans hcfg, by rw [hin', hin, List.drop_tail]⟩

/-- Settles O21: the register holds through the steps between, and a read returns its controls and RES0 bits. -/
theorem twoReadsAgree : Obligations.TwoReadsAgree := by
  intro k s t u off n r ho hp hr hq hrun
  obtain ⟨hc, hcfg, -⟩ := registerHeldThroughQuietSteps k t u n hq hrun
  obtain rfl := execRead_next_present ho hp hr
  have hc : u.ctlrOf n = s.ctlrOf n := hc
  have hcfg : u.cfg = s.cfg := hcfg
  refine ⟨_, _, _, execRead_present ho (hcfg ▸ hp), rfl, rfl, fun i _ hk => ?_⟩
  rw [kind_of_present hp] at hk
  rw [hc, hcfg]
  cases hk' : kindPresent s.cfg.rasv2 r.fr i with
  | ctrl c => rw [readWord_ctrl hk', readWord_ctrl hk']
  | res0 => rw [readWord_res0 hk', readWord_res0 hk']
  | impdef => exact absurd hk' hk

/-- With reporting off no signal is generated and nothing is recorded (60_exceptions.md R122). -/
theorem eventReport_disabled {cfg : Config} {node : Nat} {c d : Word} {ev : ErrorEvent} (h : reporting r c = false) :
    (eventReport cfg node r c ev d).signals = Signals.none ∧
    (eventReport cfg node r c ev d).recorded = .unrecorded ∧
    (eventReport cfg node r c ev d).syndromeDiscarded = false := by
  simp [eventReport, signals, h]

theorem reporting_ed {c : Word} (h : r.fr.ed = 0b10#2) : reporting r c = c.getLsbD 0 := if_pos h

/-- A step of a disabled node gives out no signal of that node. -/
theorem step_disabled {rep : EventReport} (hp : s.cfg.presentRecord n = some r) (hed : r.fr.ed = 0b10#2)
    (h0 : (s.ctlrOf n).getLsbD 0 = false) (h : step s = .next u) (hm : Output.event rep ∈ u.outputs)
    (hn : rep.node = n) : Output.event rep ∈ s.outputs ∨ rep.signals = Signals.none := by
  rcases step_outputs h with ho | ⟨m, v, ho⟩ | ⟨m, k, bs, ho⟩ | ⟨ev, rest, m, q, -, hq, ho⟩ <;> rw [ho] at hm
  · exact .inl hm
  · exact .inl (by simpa using hm)
  · exact .inl (by simpa using hm)
  · rcases List.mem_cons.mp hm with hrep | hm
    · obtain rfl := Output.event.inj hrep
      obtain rfl : m = n := hn
      obtain rfl : r = q := Option.some.inj (hp.symm.trans hq)
      exact .inr (eventReport_disabled ((reporting_ed hed).trans h0)).1
    · exact .inl hm

/-- Settles O50, by induction on the number of steps: each step leaves ED at 0, and with ED at 0 gives out no signal of
the node. -/
theorem disabledNodeStaysSilent : Obligations.DisabledNodeStaysSilent := by
  intro k
  induction k with
  | zero =>
    rintro s t n r hp hed h0 - ⟨⟩
    exact ⟨h0, fun rep hm _ => .inl hm⟩
  | succ k ih =>
    intro s t n r hp hed h0 hq hr
    obtain ⟨u, hu, hr⟩ := runSteps_succ hr
    obtain ⟨hc, hcfg, -, hq'⟩ := step_quiet hq hu
    obtain ⟨ht0, hsilent⟩ := ih u t n r (hcfg ▸ hp) hed (hc ▸ h0) hq' hr
    refine ⟨ht0, fun rep hm hn => ?_⟩
    rcases hsilent rep hm hn with hm | hnone
    · exact step_disabled hp hed h0 hu hm hn
    · exact .inr hnone

/-- An operation on a record completes, and a write of a present register is then within the policy, or it is such a
write outside the policy. -/
theorem exec_completes_or_breaks_policy {ins : Instr} (ho : recordOf ins.offset = .ok n) :
    (∃ t, exec ins s = .next t ∧
      ∀ off v, ins = .write off v → s.cfg.present n = true → WritePolicy (s.lastReadOf n) v) ∨
    (exec ins s = .refused .writePolicy ∧
      ∃ off v, ins = .write off v ∧ s.cfg.present n = true ∧ ¬ WritePolicy (s.lastReadOf n) v) := by
  cases ins with
  | read off =>
    cases hp : s.cfg.presentRecord n with
    | none => exact .inl ⟨_, execRead_absent ho hp, nofun⟩
    | some r => exact .inl ⟨_, execRead_present ho hp, nofun⟩
  | write off v =>
    cases hp : s.cfg.presentRecord n with
    | none => exact .inl ⟨_, execWrite_absent ho hp, fun _ _ _ h => by simp [Config.present, hp] at h⟩
    | some r =>
      by_cases hw : WritePolicy (s.lastReadOf n) v
      · exact .inl ⟨_, execWrite_present ho hp hw, fun _ _ hi _ => by cases hi; exact hw⟩
      · exact .inr ⟨execWrite_refused ho hp hw, off, v, rfl, by simp [Config.present, hp], hw⟩

/-- Settles O51: the offset of a decoded operation selects a record, so that the policy alone is left to refuse it. -/
theorem decodedAccessCompletesOrBreaksPolicy : Obligations.DecodedAccessCompletesOrBreaksPolicy := by
  intro s bytes rest i hw hi hd
  rw [step_cons hw hi, takeInput_access hd]
  obtain ⟨n, ho⟩ := recordOf_decoded hd
  rcases exec_completes_or_breaks_policy (s := { s with inputs := rest }) ho with
    ⟨t, he, hpol⟩ | ⟨he, off, v, rfl, hp, hpol⟩
  · rw [he]
    refine ⟨.inl ⟨t, rfl⟩, nofun, ?_⟩
    rintro ⟨off, v, m, rfl, hom, hp, hno⟩
    obtain rfl : n = m := Except.ok.inj (ho.symm.trans hom)
    exact absurd (hpol off v rfl hp) hno
  · exact ⟨.inr he, fun _ => ⟨off, v, n, rfl, ho, hp, hpol⟩, fun _ => he⟩

end Sys2Proof.Machine
end

section
/-!
PROOF. The rest of the report of an error event (60_exceptions.md, sections 1, 2, 4, 5, 7, 8): the fault handling
interrupt with its three causes, the in-band response for deferred errors, and what is recorded.
-/

namespace Sys2Proof.Machine

variable {cfg : Config} {r : Record} {c d : Word} {ev : ErrorEvent} {node n : Nat} {dir : Dir}

/-- Settles O27: the state of the step is known in full (`step_event`), and each part of it is read off. -/
theorem eventChangesNoRegister : Obligations.EventChangesNoRegister :=
  fun _ _ _ _ _ h => ⟨_, _, step_event h, rfl, rfl, rfl, rfl, rfl, rfl, rfl⟩

theorem nodeFirst_of_not_implemented {m : Nat} (h : cfg.implemented m = false) : cfg.nodeFirst m = none := by
  rw [Config.implemented, Option.isSome_eq_false_iff, Option.isNone_iff_eq_none] at h
  rw [Config.nodeFirst, h, Option.bind_none]

/-- Settles O28: a well-formed configuration gives an implemented record its node (00_scope.md R8). -/
theorem eventCompletesForImplementedRecord : Obligations.EventCompletesForImplementedRecord := by
  intro s ev rest hw hi
  refine ⟨fun him => ?_, fun him => ?_⟩
  · obtain ⟨n, r, hn, hp, -⟩ := wf_node hw him
    exact ⟨_, step_event ⟨hw, hi, hn, hp⟩⟩
  · rw [step_cons hw hi]
    simp [takeInput, takeEvent, nodeOf, nodeFirst_of_not_implemented him]

/-- Settles O29: reporting is ED where ED exists. -/
theorem disabledReportingIsSilent : Obligations.DisabledReportingIsSilent := by
  intro s ev n r rest h hed h0
  exact ⟨_, reports_event h, eventReport_disabled ((reporting_ed hed).trans h0)⟩

theorem eventReport_fhi (hu : uncontained cfg r c ev = false) :
    (eventReport cfg node r c ev d).signals.fhi = (reporting r c && (enabledSignals cfg r c ev).fhi) := by
  rw [eventReport_signals hu]
  cases reporting r c <;> rfl

theorem enabledSignals_fhi_uncorrected (h : ev.recordedAs = .uncorrected) (hce : isCEEvent cfg r c ev = false) :
    (enabledSignals cfg r c ev).fhi = fhiU cfg r c ev.dir := by
  simp [enabledSignals, h, hce]

theorem enabledSignals_fhi_deferred (h : ev.recordedAs = .deferred) (hce : isCEEvent cfg r c ev = false) :
    (enabledSignals cfg r c ev).fhi = fhiD cfg r c ev.dir := by
  simp [enabledSignals, h, hce]

theorem enabledSignals_fhi_corrected (h : ev.recordedAs = .corrected) :
    (enabledSignals cfg r c ev).fhi = (isCEEvent cfg r c ev && fhiC cfg r c ev.dir) := by
  simp [enabledSignals, h]

/-- The enable for Deferred errors where the DFI control can exist (R128). -/
theorem controlIs_fhiD (hv : cfg.rasv2 = true) :
    ControlIs r.fr.dfi (cfg.fhiBase.deferred && fi r c dir) (c.getLsbD 14 ^^ c.getLsbD 3)
      (c.getLsbD 15 ^^ c.getLsbD 6) dir (fhiD cfg r c dir) := by
  refine ⟨fun h => ?_, fun h hd => ?_, fun h hd => ?_, fun h2 h3 => ?_⟩
  · simp [fhiD, hv, h]
  · simp [fhiD, hv, h, hd]
  · simp [fhiD, hv, h, hd]
  · simp [fhiD, h2, h3]

/-- The enable for Deferred errors where the DFI control does not exist (R129 (b)). -/
theorem fhiD_of_no_dfi (h : cfg.rasv2 = false ∨ (r.fr.dfi ≠ 0b10#2 ∧ r.fr.dfi ≠ 0b11#2)) :
    fhiD cfg r c dir = (cfg.fhiBase.deferred && fi r c dir) := by
  rcases h with h | ⟨h2, h3⟩
  · simp [fhiD, h]
  · simp [fhiD, h2, h3]

/-- The enable for corrected error events (R131, R129 (c)). -/
theorem controlIs_fhiC :
    ControlIs r.fr.cfi (cfg.fhiBase.corrected && fi r c dir) (c.getLsbD 8) (c.getLsbD 9) dir (fhiC cfg r c dir) := by
  obtain ⟨hsingle, hread, hwrite, -⟩ := controlIs_sel r c .cfi 8 9 dir
  refine ⟨fun h => ?_, fun h hd => ?_, fun h hd => ?_, fun h2 h3 => ?_⟩
  · rw [fhiC, if_pos (.inl h), hsingle h]
  · rw [fhiC, if_pos (.inr h), hread h hd]
  · rw [fhiC, if_pos (.inr h), hwrite h hd]
  · rw [fhiC, if_neg (by simp [h2, h3])]

/-- With no counter, or with the control CED at 1, the corrected error events are the errors recorded as Corrected
(R133). -/
theorem isCEEvent_of_not_counter
    (h : r.hasCECounter = false ∨ (cedExists cfg.rasv2 r.fr = true ∧ c.getLsbD 12 = true)) :
    isCEEvent cfg r c ev = (ev.recordedAs == .corrected) := by
  rw [isCEEvent, if_neg]
  rintro ⟨hc, hced⟩
  rcases h with h | ⟨h, h12⟩
  · simp [h] at hc
  · exact absurd hced (by rw [h, h12]; simp)

/-- With a counter that CED does not overrule, the corrected error events are those of the counter (R134). -/
theorem isCEEvent_of_counter (h : r.hasCECounter = true)
    (hced : cedExists cfg.rasv2 r.fr = false ∨ c.getLsbD 12 = false) : isCEEvent cfg r c ev = ev.counterEvent :=
  if_pos ⟨h, hced⟩

/-- A Deferred error is a corrected error event only as the event of a counter. -/
theorem isCEEvent_deferred (hrec : ev.recordedAs = .deferred) (h : r.hasCECounter = false ∨ ev.counterEvent = false) :
    isCEEvent cfg r c ev = false := by
  rw [isCEEvent]
  split
  · next hc => exact h.resolve_left (by simp [hc.1])
  · simp [hrec]

/-- Bit 12 is CED exactly where it exists (10_state.md R31). -/
theorem kind_ced_iff (hp : cfg.presentRecord n = some r) :
    cfg.kind n 12 = .ctrl .ced ↔ cedExists cfg.rasv2 r.fr = true := by
  rw [kind_of_present hp, kindPresent, bitWhen]
  cases cedExists cfg.rasv2 r.fr <;> simp

theorem kind_no_ced (hp : cfg.presentRecord n = some r) (h : cfg.kind n 12 = .res0) :
    cedExists cfg.rasv2 r.fr = false := by
  rw [← Bool.not_eq_true, ← kind_ced_iff hp, h]
  simp

/-- Settles O32: a Deferred error has the one cause of R128, whose enable is the exclusive or. -/
theorem fhiForDeferredErrorsIsXor : Obligations.FhiForDeferredErrorsIsXor := by
  intro s ev n r rest h hrec hu hv hcnt
  have hfhi := enabledSignals_fhi_deferred (cfg := s.cfg) (c := s.ctlrOf n) hrec (isCEEvent_deferred hrec hcnt)
  obtain ⟨hsingle, hread, hwrite, -⟩ := controlIs_fhiD (r := r) (c := s.ctlrOf n) (dir := ev.dir) hv
  refine ⟨_, _, reports_event h, reportingIs_reporting _ _, fun hd => ?_, fun hd hdir => ?_, fun hd hdir => ?_⟩ <;>
    rw [eventReport_fhi hu, hfhi]
  · rw [hsingle hd]
  · rw [hread hd hdir]
  · rw [hwrite hd hdir]

/-- Settles O33: in each of the three cases the one cause left is enabled by FI under `FhiBase`. -/
theorem fhiBaseEnables : Obligations.FhiBaseEnables := by
  intro s ev n r rest h hu
  refine ⟨_, _, _, reports_event h, reportingIs_reporting _ _, controlIs_sel r _ .fi 3 6 ev.dir,
    fun hrec hce => ?_, fun hrec hce hdfi => ?_, fun hrec hce h2 h3 => ?_⟩ <;> rw [eventReport_fhi hu]
  · rw [enabledSignals_fhi_uncorrected hrec hce, fhiU, fi]
  · rw [enabledSignals_fhi_deferred hrec hce, fhiD_of_no_dfi hdfi, fi]
  · obtain ⟨-, -, -, hnone⟩ := controlIs_fhiC (cfg := s.cfg) (r := r) (c := s.ctlrOf n) (dir := ev.dir)
    rw [enabledSignals_fhi_corrected hrec, hce, hnone h2 h3, fi, Bool.true_and]

/-- Settles O34: the cause is the corrected error event, its enable CFI, and CED chooses what the event is. -/
theorem fhiForCorrectedErrors : Obligations.FhiForCorrectedErrors := by
  intro s ev n r rest h hu hrec hcfi
  have hfhi : (enabledSignals s.cfg r (s.ctlrOf n) ev).fhi =
      (isCEEvent s.cfg r (s.ctlrOf n) ev && sel r (s.ctlrOf n) .cfi 8 9 ev.dir) := by
    rw [enabledSignals_fhi_corrected hrec, fhiC, if_pos hcfi]
  have hcor : (ev.recordedAs == .corrected) = true := by simp [hrec]
  refine ⟨_, _, _, reports_event h, reportingIs_reporting _ _, controlIs_sel r _ .cfi 8 9 ev.dir,
    fun hcnt => ?_, fun hced h12 => ?_, fun hcnt hced => ?_⟩ <;> rw [eventReport_fhi hu, hfhi]
  · rw [isCEEvent_of_not_counter (.inl hcnt), hcor, Bool.true_and]
  · rw [isCEEvent_of_not_counter (.inr ⟨(kind_ced_iff h.present).mp hced, h12⟩), hcor, Bool.true_and]
  · rw [isCEEvent_of_counter hcnt (hced.imp_left (kind_no_ced h.present)), Bool.and_assoc]

/-- The corrected error event in the words of R133 and R134. -/
theorem isCEEvent_iff (hp : cfg.presentRecord n = some r) : isCEEvent cfg r c ev = true ↔
    if r.hasCECounter = true ∧ (cfg.kind n 12 ≠ .ctrl .ced ∨ c.getLsbD 12 = false) then ev.counterEvent = true
    else ev.recordedAs = .corrected := by
  simp only [isCEEvent, ne_eq, kind_ced_iff hp, Bool.not_eq_true]
  split
  · rfl
  · exact beq_iff_eq

/-- The three causes of the fault handling interrupt. -/
theorem enabledSignals_fhi_iff : (enabledSignals cfg r c ev).fhi = true ↔
    (ev.recordedAs = .uncorrected ∧ cfg.fhiBase.uncorrected = true ∧ fi r c ev.dir = true) ∨
    (ev.recordedAs = .deferred ∧ fhiD cfg r c ev.dir = true) ∨
    (isCEEvent cfg r c ev = true ∧ fhiC cfg r c ev.dir = true) := by
  simp [enabledSignals, fhiU, or_assoc]

/-- Settles O35: the witnesses are the model's own enables. -/
theorem fhiInTotal : Obligations.FhiInTotal := by
  intro s ev n r rest h hu
  refine ⟨_, reporting r (s.ctlrOf n), fi r (s.ctlrOf n) ev.dir, fhiD s.cfg r (s.ctlrOf n) ev.dir,
    fhiC s.cfg r (s.ctlrOf n) ev.dir, isCEEvent s.cfg r (s.ctlrOf n) ev, reports_event h, reportingIs_reporting _ _,
    controlIs_sel r _ .fi 3 6 ev.dir, ?_, controlIs_fhiC, isCEEvent_iff h.present, ?_⟩
  · split
    · next hdfi =>
      obtain ⟨hsingle, hread, hwrite, -⟩ := controlIs_fhiD (r := r) (c := s.ctlrOf n) (dir := ev.dir) hdfi.1
      exact ⟨hsingle, hread, hwrite, fun h2 h3 => absurd hdfi.2 (by simp [h2, h3])⟩
    · next hdfi =>
      refine fhiD_of_no_dfi ?_
      by_cases hv : s.cfg.rasv2 = true
      · exact .inr (not_or.mp fun h => hdfi ⟨hv, h⟩)
      · exact .inl (by simpa using hv)
  · rw [eventReport_fhi hu, Bool.and_eq_true, enabledSignals_fhi_iff]

theorem enabledSignals_inBandError_deferred (h : ev.notCorrectedNotDeferred = false) :
    (enabledSignals cfg r c ev).inBandError = (ev.deferredNotToRequester && ue r c ev.dir && r.deferredAborts) := by
  simp [enabledSignals, h]

/-- Settles O38: of the two causes only that of deferred errors is left. -/
theorem inBandErrorForDeferredErrors : Obligations.InBandErrorForDeferredErrors := by
  intro s ev n r rest h hu hnc
  refine ⟨_, _, _, reports_event h, reportingIs_reporting _ _, controlIs_sel r _ .ue 4 7 ev.dir, ?_⟩
  rw [eventReport_inBandError hu, enabledSignals_inBandError_deferred hnc, ue]
  simp only [Bool.and_assoc]

/-- Settles O39: by the two values of reporting. -/
theorem reportOfRecording : Obligations.ReportOfRecording := by
  intro s ev n r rest h
  refine ⟨_, _, reports_event h, reportingIs_reporting _ _, fun hon => ?_, fun hoff => ?_⟩
  · simp [eventReport, hon]
  · obtain ⟨-, hrec, hsyn⟩ := eventReport_disabled (cfg := s.cfg) (node := n) (d := s.drawn n) (ev := ev) hoff
    exact ⟨hrec, hsyn, fun hfull => by simp [eventReport, hfull]⟩

/-- Settles O40: neither the signals nor the class recorded look at whether a higher priority error is held. -/
theorem discardedSyndromeHasNoBearing : Obligations.DiscardedSyndromeHasNoBearing := by
  intro s ev b n r rest h
  have h' : EventAt { s with inputs := .event { ev with higherPriorityHeld := b } :: rest }
      { ev with higherPriorityHeld := b } n r rest := ⟨h.cfgWf, rfl, h.node, h.present⟩
  exact ⟨_, _, reports_event h, reports_event h', rfl, rfl⟩

end Sys2Proof.Machine
end

section
/-!
PROOF. Which bits of the governing register a report looks at: the controls that judge errors of its direction, and no
other bit (10_state.md, section 4; 60_exceptions.md R125).
-/

namespace Sys2Proof

/-- Whether a control decides on errors of a direction: the halves of a split control on one each, every other control
on both (60_exceptions.md R125). -/
def Ctrl.judges : Ctrl → Dir → Bool
  | .rdfi, dir | .rdui, dir | .rcfi, dir | .rue, dir | .rfi, dir | .rui, dir => decide (dir = .read)
  | .wdfi, dir | .wdui, dir | .wcfi, dir | .wue, dir | .wfi, dir | .wui, dir => decide (dir = .write)
  | .dfi, _ | .ci, _ | .ced, _ | .dui, _ | .cfi, _ | .ue, _ | .fi, _ | .ui, _ | .ed, _ => true

/-- Two register values agree in every control that judges errors of the direction. -/
def JudgedAlike (v2 : Bool) (fr : FR) (dir : Dir) (c c' : Word) : Prop :=
  ∀ i k, kindPresent v2 fr i = .ctrl k → k.judges dir = true → c.getLsbD i = c'.getLsbD i

end Sys2Proof

namespace Sys2Proof.Machine

section Alike

variable {cfg : Config} {r : Record} {c c' : Word} {ev : ErrorEvent} {dir : Dir} {v2 : Bool}

theorem judgedAlike_reporting (h : JudgedAlike v2 r.fr dir c c') : reporting r c = reporting r c' := by
  unfold reporting
  split
  · next hed => exact h 0 .ed (by simp [kindPresent, bitWhen, hed]) rfl
  · rfl

theorem judgedAlike_cri (h : JudgedAlike v2 r.fr dir c c') : cri r c = cri r c' := by
  unfold cri
  split
  · next hci => exact h 13 .ci (by simp [kindPresent, bitWhen, hci]) rfl
  · rfl

theorem judgedAlike_uncontained (h : JudgedAlike v2 r.fr dir c c') :
    uncontained cfg r c ev = uncontained cfg r c' ev := by
  by_cases hci : r.fr.ci = 0b10#2
  · rw [uncontained, uncontained, h 13 .ci (by simp [kindPresent, bitWhen, hci]) rfl]
  · simp [uncontained, beq_eq_false_iff_ne.mpr hci]

theorem judgedAlike_isCEEvent (h : JudgedAlike cfg.rasv2 r.fr dir c c') :
    isCEEvent cfg r c ev = isCEEvent cfg r c' ev := by
  cases hced : cedExists cfg.rasv2 r.fr with
  | true => rw [isCEEvent, isCEEvent, h 12 .ced (by simp [kindPresent, bitWhen, hced]) rfl]
  | false => simp [isCEEvent, hced]

/-- A feature whose control stands at `lo`, or is split into halves at `lo` and `hi`. -/
theorem judgedAlike_sel (h : JudgedAlike v2 r.fr dir c c') {f : Feature} {lo hi : Nat} {single low high : Ctrl}
    (hlo : kindPresent v2 r.fr lo = lowBit (r.fr.field f) single low)
    (hhi : kindPresent v2 r.fr hi = bitWhen (r.fr.field f == 0b11#2) high)
    (hsingle : ∀ dir, single.judges dir = true) (hlow : low.judges .read = true) (hhigh : high.judges .write = true) :
    sel r c f lo hi dir = sel r c' f lo hi dir := by
  unfold sel
  split
  · next h2 => exact h lo single (by rw [hlo, lowBit, if_pos h2]) (hsingle dir)
  · next h2 =>
    split
    · next h3 =>
      cases dir with
      | read => exact h lo low (by rw [hlo, lowBit, if_neg h2, if_pos h3]) hlow
      | write => exact h hi high (by rw [hhi, h3]; rfl) hhigh
    · rfl

theorem judgedAlike_eriU (h : JudgedAlike v2 r.fr dir c c') : eriU r c dir = eriU r c' dir :=
  judgedAlike_sel h rfl rfl (single := .ui) (fun _ => rfl) rfl rfl

theorem judgedAlike_eriD (h : JudgedAlike v2 r.fr dir c c') : eriD r c dir = eriD r c' dir :=
  judgedAlike_sel h rfl rfl (single := .dui) (fun _ => rfl) rfl rfl

theorem judgedAlike_fi (h : JudgedAlike v2 r.fr dir c c') : fi r c dir = fi r c' dir :=
  judgedAlike_sel h rfl rfl (single := .fi) (fun _ => rfl) rfl rfl

theorem judgedAlike_ue (h : JudgedAlike v2 r.fr dir c c') : ue r c dir = ue r c' dir :=
  judgedAlike_sel h rfl rfl (single := .ue) (fun _ => rfl) rfl rfl

theorem judgedAlike_fhiC (h : JudgedAlike v2 r.fr dir c c') : fhiC cfg r c dir = fhiC cfg r c' dir := by
  have hsel : sel r c .cfi 8 9 dir = sel r c' .cfi 8 9 dir :=
    judgedAlike_sel h rfl rfl (single := .cfi) (fun _ => rfl) rfl rfl
  rw [fhiC, fhiC, hsel, judgedAlike_fi h]

/-- Where the DFI control exists, its partner in the pair is a control too (00_scope.md R8 item 3). -/
theorem judgedAlike_fhiD (h : JudgedAlike cfg.rasv2 r.fr dir c c')
    (h2 : cfg.rasv2 = true → r.fr.dfi = 0b10#2 → r.fr.fi = 0b10#2)
    (h3 : cfg.rasv2 = true → r.fr.dfi = 0b11#2 → r.fr.fi = 0b11#2) : fhiD cfg r c dir = fhiD cfg r c' dir := by
  unfold fhiD
  split
  · next hd =>
    obtain ⟨hv, hd⟩ := hd
    rw [h 14 .dfi (by simp [kindPresent, lowBit, hv, hd]) rfl, h 3 .fi (by simp [kindPresent, lowBit, h2 hv hd]) rfl]
  · split
    · next hd =>
      obtain ⟨hv, hd⟩ := hd
      have hf := h3 hv hd
      cases dir with
      | read =>
        have h14 := h 14 .rdfi (by simp [kindPresent, lowBit, hv, hd]) rfl
        have h3 := h 3 .rfi (by simp [kindPresent, lowBit, hf]) rfl
        simp only [h14, h3]
      | write =>
        have h15 := h 15 .wdfi (by simp [kindPresent, bitWhen, hv, hd]) rfl
        have h6 := h 6 .wfi (by simp [kindPresent, bitWhen, hf]) rfl
        simp only [h15, h6]
    · rw [judgedAlike_fi h]

/-- The report of an event looks at the controls that judge errors of its direction, and at no other bit. -/
theorem judgedAlike_eventReport {node : Nat} {d : Word} (h : JudgedAlike cfg.rasv2 r.fr ev.dir c c')
    (h2 : cfg.rasv2 = true → r.fr.dfi = 0b10#2 → r.fr.fi = 0b10#2)
    (h3 : cfg.rasv2 = true → r.fr.dfi = 0b11#2 → r.fr.fi = 0b11#2) :
    eventReport cfg node r c ev d = eventReport cfg node r c' ev d := by
  have hen : enabledSignals cfg r c ev = enabledSignals cfg r c' ev := by
    simp only [enabledSignals, fhiU, judgedAlike_eriU h, judgedAlike_eriD h, judgedAlike_fi h, judgedAlike_fhiD h h2 h3,
      judgedAlike_isCEEvent h, judgedAlike_fhiC h, judgedAlike_cri h, judgedAlike_ue h]
  simp only [eventReport, signals, judgedAlike_reporting h, judgedAlike_uncontained h, hen]

end Alike

variable {s : State} {regs : List (Nat × Word)} {ev : ErrorEvent} {n : Nat} {r : Record} {rest : List Input}

/-- Two states that differ in their registers only, and whose governing registers are judged alike, give one report. -/
theorem reports_judgedAlike (h : EventAt s ev n r rest)
    (hc : JudgedAlike s.cfg.rasv2 r.fr ev.dir (s.ctlrOf n) (({ s with ctlr := regs } : State).ctlrOf n)) :
    ∃ rep, Reports s rep ∧ Reports { s with ctlr := regs } rep := by
  have h' : EventAt { s with ctlr := regs } ev n r rest := ⟨h.cfgWf, h.next, h.node, h.present⟩
  refine ⟨_, reports_event h, ?_⟩
  rw [judgedAlike_eventReport hc (fun hv => (wf_dfi h.cfgWf h.present hv).1)
    (fun hv => (wf_dfi h.cfgWf h.present hv).2)]
  exact reports_event h'

/-- Settles O41: registers that agree in every control are judged alike. -/
theorem onlyControlsAffectReports : Obligations.OnlyControlsAffectReports := by
  intro s regs ev n r rest h hc
  exact reports_judgedAlike h fun i k hk _ => hc i k (by rw [kind_of_present h.present, hk])

/-- Settles O49: equal governing registers are judged alike. -/
theorem otherNodesDoNotAffectReport : Obligations.OtherNodesDoNotAffectReport := by
  intro s regs ev n r rest h hc
  exact reports_judgedAlike h fun i k _ _ => by rw [hc]

theorem judges_read_position (k : Ctrl) (h : k.judges .read = true) : k.position ∉ [5, 6, 7, 9, 11, 15] := by
  revert h
  cases k <;> decide

/-- Settles O42: the write bits hold write halves, which do not judge reads. -/
theorem writeControlsDoNotAffectReads : Obligations.WriteControlsDoNotAffectReads := by
  intro s regs ev n r rest h hdir hc
  refine reports_judgedAlike h fun i k hk hj => hc i ?_
  rw [kindPresent_position hk]
  exact judges_read_position k (hdir ▸ hj)

theorem lowBit_split {f : BitVec 2} {a b k : Ctrl} (hf : f = 0b11#2) (hk : lowBit f a b = .ctrl k) : k = b := by
  rw [lowBit, if_neg (by simp [hf]), if_pos hf] at hk
  exact (BitKind.ctrl.inj hk).symm

/-- Settles O43: with every feature split the read bits hold read halves, which do not judge writes. -/
theorem readControlsDoNotAffectWrites : Obligations.ReadControlsDoNotAffectWrites := by
  intro s regs ev n r rest h hdir hv hui hfi hue hcfi hdui hdfi hc
  refine reports_judgedAlike h fun i k hk hj => hc i fun hi => ?_
  rw [hdir] at hj
  rw [hv] at hk
  simp only [List.mem_cons, List.not_mem_nil, or_false] at hi
  obtain rfl | rfl | rfl | rfl | rfl | rfl := hi
  · cases lowBit_split hui hk; cases hj
  · cases lowBit_split hfi hk; cases hj
  · cases lowBit_split hue hk; cases hj
  · cases lowBit_split hcfi hk; cases hj
  · cases lowBit_split hdui hk; cases hj
  · cases lowBit_split hdfi hk; cases hj

end Sys2Proof.Machine
end

section
/-!
PROOF. The bytes of a register and of a part of it (20_memory.md R65, R67; log entry 16).
-/

namespace Sys2Proof

variable {order : ByteOrder} {v : Word} {p : Part} {bs : List Byte} {i : Nat}

theorem byteAt_lt (order : ByteOrder) (h : i < 64) : byteAt order i < 8 := by
  cases order with
  | little => exact Nat.div_lt_of_lt_mul h
  | big => exact Nat.lt_succ_of_le (Nat.sub_le 7 (i / 8))

/-- Bit `i` of a word is bit `i mod 8` of the byte that holds it. -/
theorem getLsbD_byte {x : Byte} (h : i < 64) (hx : (wordBytes order v)[byteAt order i]? = some x) :
    x.getLsbD (i % 8) = v.getLsbD i := by
  rw [getElem?_wordBytes order v h] at hx
  rw [← Option.some.inj hx, BitVec.getLsbD_extractLsb', Nat.div_add_mod, decide_eq_true (Nat.mod_lt i (by omega)),
    Bool.true_and]

/-- The byte-level view of eight bytes as a word gives them back, in either byte order. -/
theorem wordBytes_bytesWord (order : ByteOrder) (h : bs.length = 8) : wordBytes order (bytesWord order bs) = bs := by
  have back (l : List Byte) (hl : l.length = 8) : natBytes 8 (BitVec.ofNat 64 (bytesNat l)).toNat = l := by
    have hlt : bytesNat l < 2 ^ 64 := by simpa [hl] using bytesNat_lt l
    rw [BitVec.toNat_ofNat, Nat.mod_eq_of_lt hlt, ← hl, natBytes_bytesNat]
  cases order with
  | little => exact back bs h
  | big =>
    rw [bytesWord, wordBytes, back bs.reverse (by rw [List.length_reverse, h]), List.reverse_reverse]

/-- The eight bytes of the word that a part is widened to. -/
theorem wordBytes_wordOf (hf : p.fits = true) (hl : bs.length = p.size) : wordBytes order (p.wordOf order bs) =
    List.replicate p.first 0 ++ bs ++ List.replicate (8 - p.first - p.size) 0 := by
  obtain ⟨-, -, h8⟩ := fits_iff.mp hf
  refine wordBytes_bytesWord order ?_
  simp only [List.length_append, List.length_replicate]
  omega

theorem bytesOf_wordOf (hf : p.fits = true) (hl : bs.length = p.size) : p.bytesOf order (p.wordOf order bs) = bs := by
  rw [Part.bytesOf, wordBytes_wordOf hf hl, List.append_assoc, List.drop_left' List.length_replicate,
    List.take_left' hl]

theorem bytesOf_length (hf : p.fits = true) : (p.bytesOf order v).length = p.size := by
  obtain ⟨-, -, h8⟩ := fits_iff.mp hf
  rw [Part.bytesOf, List.length_take, List.length_drop, wordBytes_length]
  omega

theorem getElem?_bytesOf {j : Nat} (h : j < p.size) :
    (p.bytesOf order v)[j]? = (wordBytes order v)[p.first + j]? := by
  rw [Part.bytesOf, List.getElem?_take_of_lt h, List.getElem?_drop]

theorem covers_iff : p.covers order i = true ↔ p.first ≤ byteAt order i ∧ byteAt order i < p.first + p.size := by
  simp [Part.covers]

/-- Outside the part the widened word is 0. -/
theorem getLsbD_wordOf_not_covers (hf : p.fits = true) (hl : bs.length = p.size) (hc : p.covers order i = false) :
    (p.wordOf order bs).getLsbD i = false := by
  by_cases hi : i < 64
  · have hb := byteAt_lt order hi
    have hout : ¬ (p.first ≤ byteAt order i ∧ byteAt order i < p.first + p.size) := by
      rw [← covers_iff, hc]
      exact Bool.false_ne_true
    have hx : (wordBytes order (p.wordOf order bs))[byteAt order i]? = some 0 := by
      obtain ⟨-, -, h8⟩ := fits_iff.mp hf
      rw [wordBytes_wordOf hf hl]
      by_cases hlow : byteAt order i < p.first
      · rw [List.append_assoc, List.getElem?_append_left (by simpa using hlow),
          List.getElem?_replicate_of_lt hlow]
      · have hlen : (List.replicate p.first (0 : Byte) ++ bs).length = p.first + p.size := by simp [hl]
        rw [List.getElem?_append_right (by omega), hlen, List.getElem?_replicate_of_lt (by omega)]
    rw [← getLsbD_byte hi hx]
    exact BitVec.getLsbD_zero
  · exact BitVec.getLsbD_of_ge _ _ (by omega)

/-- The bytes of a part, widened, are the bits of the part. -/
theorem getLsbD_wordOf_bytesOf (hf : p.fits = true) (hi : i < 64) :
    (p.wordOf order (p.bytesOf order v)).getLsbD i = (p.covers order i && v.getLsbD i) := by
  have hl := bytesOf_length (order := order) (v := v) hf
  cases hc : p.covers order i with
  | false => exact getLsbD_wordOf_not_covers hf hl hc
  | true =>
    obtain ⟨hlow, hhigh⟩ := covers_iff.mp hc
    have hpart (w : Word) : (wordBytes order w)[byteAt order i]? = (p.bytesOf order w)[byteAt order i - p.first]? := by
      rw [getElem?_bytesOf (by omega), Nat.add_sub_cancel' hlow]
    have hx := getElem?_wordBytes order v hi
    have hy := (hpart (p.wordOf order (p.bytesOf order v))).trans
      (by rw [bytesOf_wordOf hf hl, ← hpart, hx])
    rw [← getLsbD_byte hi hy, getLsbD_byte hi hx, Bool.true_and]

/-- Settles O53: byte by byte, and for a part through the eight bytes it is widened to. -/
theorem partBytesView : Obligations.PartBytesView := by
  intro order v p bs
  refine ⟨fun i hi => ?_, fun hf hl => ⟨bytesOf_wordOf hf hl, bytesOf_length hf, fun i hc => ?_, fun j hj => ?_⟩⟩
  · have hx := getElem?_wordBytes order v hi
    exact ⟨_, hx, getLsbD_byte hi hx⟩
  · exact getLsbD_wordOf_not_covers hf hl hc
  · exact getElem?_bytesOf hj

theorem bytesOf_zero (hf : p.fits = true) : p.bytesOf order 0 = List.replicate p.size 0 := by
  obtain ⟨-, -, h8⟩ := fits_iff.mp hf
  have hz : wordBytes order 0 = List.replicate 8 0 := by cases order <;> rfl
  rw [Part.bytesOf, hz, List.drop_replicate, List.take_replicate, Nat.min_eq_left (by omega)]

end Sys2Proof
end

section
/-!
PROOF. Accesses of an admitted size (20_memory.md R65; log entry 16): a read, a write, an absent register, and the two
halves of a word.
-/

namespace Sys2Proof.Machine

variable {s : State} {b : BusAccess} {p : Part} {n i : Nat} {bs : List Byte} {r : Record} {rest : List Input} {v : Word}

theorem takeInput_part (h : busToPart s.cfg b = .ok p) : takeInput (.bus b) s = takePart p b s := by
  have h8 := (busToPart_ok h).1
  simp [takeInput, takeBus, h8, h]

/-- Settles O54: the result is the read word of the register, of which the bytes of the part are given out. -/
theorem partReadOfPresentRegister : Obligations.PartReadOfPresentRegister := by
  intro s p a r rest h
  have hp := h.present
  refine ⟨_, _, _, (step_part h).trans (readPart_present hp), rfl, fun i hi => ?_, answerPart_lastReadOf_same _ _ _,
    fun i hi => ?_, rfl, rfl, rfl, rfl, fun m hm => answerPart_lastReadOf_other _ _ _ hm⟩
  · rw [kind_of_present hp]
    refine ⟨fun c hk => readWord_ctrl hk, fun hk => readWord_res0 hk, fun hk => ?_⟩
    exact (readWord_impdef hk).trans (by rw [decide_eq_true hi, Bool.true_and]; rfl)
  · rw [getLsbD_mergeWord, getLsbD_mask, decide_eq_true hi, Bool.true_and]
    rfl

/-- Settles O55: in the part the new value is the written word of the register, elsewhere the old value. -/
theorem partWriteOfPresentRegister : Obligations.PartWriteOfPresentRegister := by
  intro s p a bs r rest h hw
  have hp := h.present
  refine ⟨_, (step_part h).trans (writePart_present hp hw), fun i hi => ?_,
    fun m hm => setCtlr_ctlrOf_other _ _ hm, rfl, rfl, rfl, rfl, rfl⟩
  rw [kind_of_present hp, setCtlr_ctlrOf_same, getLsbD_mergeWord, getLsbD_mask, decide_eq_true hi, Bool.true_and]
  refine ⟨fun hc => if_neg (Bool.not_eq_true _ ▸ hc), fun c hc hk => ?_, fun hc hk => ?_⟩
  · rw [if_pos hc, writeWord_ctrl hk]
  · rw [if_pos hc, writeWord_res0 hk]
    rfl

/-- A write of a part of a present register is refused by the policy exactly outside it. -/
theorem writePart_refused_iff (hp : s.cfg.presentRecord p.n = some r) :
    writePart p bs s = .refused .writePolicy ↔ ¬ WritePolicy (s.lastReadOf p.n) (p.wordOf s.cfg.byteOrder bs) := by
  refine ⟨fun h hw => ?_, writePart_refused hp⟩
  rw [writePart_present hp hw] at h
  cases h

/-- Settles O56: the step is the write of the part, which within the policy completes. -/
theorem partWriteIsRefusedExactlyOutsidePolicy : Obligations.PartWriteIsRefusedExactlyOutsidePolicy := by
  intro s p a bs r rest h
  rw [step_part h]
  exact writePart_refused_iff (s := { s with inputs := rest }) h.present

/-- Settles O57: by the direction of the access; the bytes of the word 0 are 0. -/
theorem absentPartAccess : Obligations.AbsentPartAccess := by
  intro s b p rest hw hi hb hp
  have hp := present_false_iff.mp hp
  obtain ⟨-, -, -, -, hf, -⟩ := busToPart_ok hb
  rw [step_cons hw hi, takeInput_part (s := { s with inputs := rest }) hb]
  refine ⟨fun hd => ?_, fun hd => ?_⟩
  · cases b with
    | read a k => cases hd
    | write a bs => exact writePart_absent hp
  · cases b with
    | read a k =>
      refine ⟨_, readPart_absent hp, ?_, rfl, rfl, rfl, rfl, fun m hm => answerPart_lastReadOf_other _ _ _ hm⟩
      rw [answerPart_outputs, bytesOf_zero hf]
    | write a bs => cases hd

/-- A part of a word within the policy is within the policy. -/
theorem writePolicy_part {last : Option Word} {order : ByteOrder} (hf : p.fits = true) (hw : WritePolicy last v) :
    WritePolicy last (p.wordOf order (p.bytesOf order v)) := by
  intro i hi
  rw [getLsbD_wordOf_bytesOf hf (by omega)]
  cases p.covers order i with
  | false => exact .inl rfl
  | true => simpa using hw i hi

/-- The half of the register of record `n` that starts at byte `first`. -/
def halfOf (n first : Nat) : Part := { n := n, first := first, size := 4 }

/-- Every bit stands in one of the two halves. -/
theorem covers_halfOf {order : ByteOrder} (hi : i < 64) :
    (halfOf n 4).covers order i = !(halfOf n 0).covers order i := by
  have hb := byteAt_lt order hi
  rw [Bool.eq_not_iff, ne_eq, Bool.eq_iff_iff, covers_iff, covers_iff]
  simp only [halfOf]
  omega

theorem halfOf_fits {first : Nat} (h : first = 0 ∨ first = 4) : (halfOf n first).fits = true := by
  rcases h with rfl | rfl <;> simp [fits_iff, halfOf]

/-- A write of one half of a word within the policy: the bits of the half take their value, the others stay. -/
theorem step_writeHalf {first : Nat} (hfirst : first = 0 ∨ first = 4) (hwf : s.cfg.wf = true)
    (hp : s.cfg.presentRecord n = some r) (h4 : 4 ∈ s.cfg.accessSizes) (hw : WritePolicy (s.lastReadOf n) v)
    (hi : s.inputs = .bus (.write (s.cfg.rasBase + offsetOf n + first)
      ((halfOf n first).bytesOf s.cfg.byteOrder v)) :: rest) :
    ∃ t, step s = .next t ∧ t.inputs = rest ∧ t.cfg = s.cfg ∧ t.lastRead = s.lastRead ∧
      ∀ i, i < 64 →
        ((halfOf n first).covers s.cfg.byteOrder i = false → (t.ctlrOf n).getLsbD i = (s.ctlrOf n).getLsbD i) ∧
        (∀ c, (halfOf n first).covers s.cfg.byteOrder i = true → s.cfg.kind n i = .ctrl c →
          (t.ctlrOf n).getLsbD i = v.getLsbD i) ∧
        ((halfOf n first).covers s.cfg.byteOrder i = true → s.cfg.kind n i = .res0 →
          (t.ctlrOf n).getLsbD i = if r.res0Stored.getLsbD i then v.getLsbD i else (s.ctlrOf n).getLsbD i) := by
  have hf := halfOf_fits (n := n) hfirst
  have hat : PartAccessAt s _ (halfOf n first) r rest :=
    ⟨hwf, hi, ⟨h4, show 4 ≠ 8 by decide⟩, bytesOf_length hf, rfl, hf, hp⟩
  obtain ⟨t, ht, hbits, -, hlast, -, hcfg, hin, -⟩ :=
    partWriteOfPresentRegister _ _ _ _ _ _ hat (writePolicy_part hf hw)
  refine ⟨t, ht, hin, hcfg, hlast, fun i h64 => ?_⟩
  obtain ⟨hout, hctrl, hres0⟩ := hbits i h64
  have hv (hc : (halfOf n first).covers s.cfg.byteOrder i = true) := by
    have h := getLsbD_wordOf_bytesOf (order := s.cfg.byteOrder) (v := v) hf h64
    rwa [hc, Bool.true_and] at h
  exact ⟨hout, fun c hc hk => (hctrl c hc hk).trans (hv hc), fun hc hk => hv hc ▸ hres0 hc hk⟩

/-- Settles O58: the second half is written over what the first left, and each bit stands in one half. -/
theorem halfWritesMakeTheWrite : Obligations.HalfWritesMakeTheWrite := by
  intro s n r v rest hwf hp h4 hw hi
  obtain ⟨t, ht, htin, htcfg, htlast, hfirst⟩ := step_writeHalf (.inl rfl) hwf hp h4 hw hi
  have hdrop : (wordBytes s.cfg.byteOrder v).drop 4 = (halfOf n 4).bytesOf t.cfg.byteOrder v := by
    rw [htcfg]
    exact (List.take_of_length_le (by simp [halfOf])).symm
  have hw' : WritePolicy (t.lastReadOf n) v := by
    rw [State.lastReadOf, htlast]
    exact hw
  obtain ⟨u, hu, huin, -, -, hsecond⟩ := step_writeHalf (s := t) (.inr rfl) (htcfg ▸ hwf) (htcfg ▸ hp) (htcfg ▸ h4) hw'
    (by rw [htin, hdrop, htcfg])
  refine ⟨u, by simp [runSteps, ht, hu], huin, fun i h64 => ?_⟩
  obtain ⟨hout, hctrl, hres0⟩ := hfirst i h64
  obtain ⟨hout', hctrl', hres0'⟩ := hsecond i h64
  rw [htcfg, covers_halfOf h64] at hout' hctrl' hres0'
  cases hc : (halfOf n 0).covers s.cfg.byteOrder i with
  | true =>
    rw [hout' (by rw [hc]; rfl)]
    exact ⟨fun c => hctrl c hc, hres0 hc⟩
  | false =>
    rw [← hout hc]
    exact ⟨fun c => hctrl' c (by rw [hc]; rfl), hres0' (by rw [hc]; rfl)⟩

end Sys2Proof.Machine
end
